-- ==== Sys2Proof/Word.lean ====
section
/-! DEFINITION. The word types of the block and of its transaction word. -/

namespace Sys2Proof

/-- One memory cell, and the DATA8 field: 8 bits (00_scope.md R8). -/
abbrev Byte := BitVec 8

/-- A CPU address, and the ADDR16 field: 16 bits (00_scope.md R8, 30_encoding.md R72). -/
abbrev Addr := BitVec 16

/-- The DRV field: a drive index in 4 bits (30_encoding.md R71). -/
abbrev DriveIx := BitVec 4

/-- A transaction word: 64 bits (30_encoding.md R68). -/
abbrev TxnWord := BitVec 64

end Sys2Proof
end

