-- ==== Sys2Proof/Syntax.lean ====
section
/-! DEFINITION. The transactions of the block: one constructor of `Instr` per row of spec/opcode_table.json. The fields
a transaction ignores (30_encoding.md R79) do not occur in it. -/

namespace Sys2Proof

/-- Which of a drive's two buffers: SEL = 3 is Data, SEL = 4 is Image (30_encoding.md R70). -/
inductive BufSel where
  | data | image
deriving DecidableEq, Repr

/-- The segment a segment-port transaction names (30_encoding.md R70, R71; 40_segment.md R92). DRV counts only for a
drive's buffer. -/
inductive SegRef where
  | main
  | aux
  | rom
  | buf (b : BufSel) (d : DriveIx)
deriving DecidableEq, Repr

/-- ImageType (10_state.md R36). Code 3 is reserved, so it is no value of this type. -/
inductive ImageType where
  | dos33 | prodos | nibble
deriving DecidableEq, Repr

/-- The 18 operations of the opcode map (30_encoding.md R78). -/
inductive Op where
  | busRd | busWr | mmGet
  | segGet | segSet | segCopy | segSize | segAttach
  | drvStepPhase | drvShift | drvStep | drvPosition | drvGetHead
  | drvGetFlags | drvSetFlags | drvGetImagetype | drvSetImagetype
  | reset
deriving DecidableEq, Repr

/-- A transaction (30_encoding.md R67, R78). Integer operands are the spec's `imm = sext_24(IMM24)` (R74). -/
inductive Instr where
  /-- BUS_RD, 41_bus.md R105. -/
  | busRd (a : Addr)
  /-- BUS_WR, 41_bus.md R106. -/
  | busWr (a : Addr) (v : Byte)
  /-- MM_GET, 41_bus.md R118. -/
  | mmGet
  /-- SEG_GET, 40_segment.md R93. -/
  | segGet (r : SegRef) (i : Int)
  /-- SEG_SET, 40_segment.md R94. -/
  | segSet (r : SegRef) (i : Int) (v : Byte)
  /-- SEG_COPY, 40_segment.md R95; its length L is the length of the payload (30_encoding.md R76). -/
  | segCopy (r : SegRef) (start : Int) (bytes : List Byte)
  /-- SEG_SIZE, 40_segment.md R96. -/
  | segSize (r : SegRef)
  /-- SEG_ATTACH, 40_segment.md R97; a negative length is reserved (30_encoding.md R81). -/
  | segAttach (b : BufSel) (d : DriveIx) (n : Nat)
  /-- DRV_STEP_PHASE, 42_drive.md R128. -/
  | drvStepPhase (d : DriveIx) (a : Addr)
  /-- DRV_SHIFT, 42_drive.md R126. -/
  | drvShift (d : DriveIx) (off : Int)
  /-- DRV_STEP, 42_drive.md R125. -/
  | drvStep (d : DriveIx) (off : Int)
  /-- DRV_POSITION, 42_drive.md R130. -/
  | drvPosition (d : DriveIx)
  /-- DRV_GET_HEAD, 42_drive.md R135. -/
  | drvGetHead (d : DriveIx)
  /-- DRV_GET_FLAGS, 42_drive.md R132. -/
  | drvGetFlags (d : DriveIx)
  /-- DRV_SET_FLAGS, 42_drive.md R133. -/
  | drvSetFlags (d : DriveIx) (v : Byte)
  /-- DRV_GET_IMAGETYPE, 42_drive.md R134. -/
  | drvGetImagetype (d : DriveIx)
  /-- DRV_SET_IMAGETYPE, 42_drive.md R136. -/
  | drvSetImagetype (d : DriveIx) (t : ImageType)
  /-- RESET, 70_reset_and_hazards.md R165. -/
  | reset
deriving DecidableEq, Repr

/-- The operation of a transaction. -/
def Instr.op : Instr → Op
  | .busRd _ => .busRd
  | .busWr _ _ => .busWr
  | .mmGet => .mmGet
  | .segGet _ _ => .segGet
  | .segSet _ _ _ => .segSet
  | .segCopy _ _ _ => .segCopy
  | .segSize _ => .segSize
  | .segAttach _ _ _ => .segAttach
  | .drvStepPhase _ _ => .drvStepPhase
  | .drvShift _ _ => .drvShift
  | .drvStep _ _ => .drvStep
  | .drvPosition _ => .drvPosition
  | .drvGetHead _ => .drvGetHead
  | .drvGetFlags _ => .drvGetFlags
  | .drvSetFlags _ _ => .drvSetFlags
  | .drvGetImagetype _ => .drvGetImagetype
  | .drvSetImagetype _ _ => .drvSetImagetype
  | .reset => .reset

/-- The fields of a transaction word other than OP and RSV (30_encoding.md R68). -/
inductive FieldName where
  | sel | drv | addr16 | data8 | imm24
deriving DecidableEq, Repr

/-- The seven fields of a transaction word (30_encoding.md R68). -/
structure TxnFields where
  op     : BitVec 8
  sel    : BitVec 3
  rsv    : BitVec 1
  drv    : BitVec 4
  addr16 : BitVec 16
  data8  : BitVec 8
  imm24  : BitVec 24
deriving DecidableEq, Repr

/-- What is presented on a port: a word, and the bytes that follow it (30_encoding.md R67, R76; log 1). -/
structure Txn where
  word    : TxnWord
  payload : List Byte
deriving DecidableEq, Repr

/-- Why a presented transaction decodes to no transaction of the block (30_encoding.md R81, but for `strayPayload`). -/
inductive DecodeError where
  /-- An OP value not in the opcode map. -/
  | reservedOp
  /-- RSV = 1 (30_encoding.md R75). -/
  | reservedBit
  /-- SEL = 5, 6 or 7 in a segment transaction. -/
  | reservedSel
  /-- SEL = 0, 1 or 2 in SEG_ATTACH. -/
  | attachSel
  /-- `imm < 0` in SEG_ATTACH. -/
  | attachLength
  /-- ImageType code 3 in DRV_SET_IMAGETYPE. -/
  | reservedImageType
  /-- A SEG_COPY whose payload has fewer than L bytes. -/
  | shortPayload
  /-- Bytes after the word that belong to no payload of it: "exactly L" bytes follow a SEG_COPY word, and "no other
  transaction has a payload" (30_encoding.md R76). DESIGN CHOICE, safe (log 4). -/
  | strayPayload
deriving DecidableEq, Repr

end Sys2Proof
end

