-- ==== Sys2Proof/WellFormed.lean ====
section
/-! DEFINITION. Which transactions the word format can carry (30_encoding.md R68, R74, R76), on a machine of `n` drives
(30_encoding.md R71, R81). -/

namespace Sys2Proof

/-- A drive index that names a drive: `d < N_DRIVES` (30_encoding.md R71). -/
def driveOk (n : Nat) (d : DriveIx) : Bool := decide (d.toNat < n)

/-- A segment that DRV may name (30_encoding.md R71). -/
def SegRef.ok (n : Nat) : SegRef → Bool
  | .main => true
  | .aux => true
  | .rom => true
  | .buf _ d => driveOk n d

/-- The range of IMM24, "an integer from -8388608 to 8388607" (30_encoding.md R74). -/
def immOk (i : Int) : Bool := decide (-8388608 ≤ i) && decide (i ≤ 8388607)

/-- The drive of a segment that DRV names, none for Main, Aux and Rom (30_encoding.md R71). -/
def SegRef.drive? : SegRef → Option DriveIx
  | .main => none
  | .aux => none
  | .rom => none
  | .buf _ d => some d

/-- The drive of a transaction that reads DRV (30_encoding.md R71). -/
def Instr.drive? : Instr → Option DriveIx
  | .busRd _ => none
  | .busWr _ _ => none
  | .mmGet => none
  | .segGet r _ => r.drive?
  | .segSet r _ _ => r.drive?
  | .segCopy r _ _ => r.drive?
  | .segSize r => r.drive?
  | .segAttach _ d _ => some d
  | .drvStepPhase d _ => some d
  | .drvShift d _ => some d
  | .drvStep d _ => some d
  | .drvPosition d => some d
  | .drvGetHead d => some d
  | .drvGetFlags d => some d
  | .drvSetFlags d _ => some d
  | .drvGetImagetype d => some d
  | .drvSetImagetype d _ => some d
  | .reset => none

/-- Every operand fits its field and every drive exists. -/
def Instr.wf (n : Nat) : Instr → Bool
  | .busRd _ => true
  | .busWr _ _ => true
  | .mmGet => true
  | .segGet r i => r.ok n && immOk i
  | .segSet r i _ => r.ok n && immOk i
  | .segCopy r start bytes => r.ok n && immOk start && decide (bytes.length ≤ 65535)
  | .segSize r => r.ok n
  | .segAttach _ d len => driveOk n d && decide (len ≤ 8388607)
  | .drvStepPhase d _ => driveOk n d
  | .drvShift d off => driveOk n d && immOk off
  | .drvStep d off => driveOk n d && immOk off
  | .drvPosition d => driveOk n d
  | .drvGetHead d => driveOk n d
  | .drvGetFlags d => driveOk n d
  | .drvSetFlags d _ => driveOk n d
  | .drvGetImagetype d => driveOk n d
  | .drvSetImagetype d _ => driveOk n d
  | .reset => true

end Sys2Proof
end

