-- ==== Sys2Proof/Decode.lean ====
section
/-! DEFINITION. The transaction word: unpacking, the decoder (total on every word and payload, rejecting by name), the
encoder written from the same tables, and the assembler text of a transaction (spec/30_encoding.md). -/

namespace Sys2Proof

/-- The OP values of the opcode map (30_encoding.md R78; the values are the spec's decision D3). -/
def Op.code : Op → BitVec 8
  | .busRd => 0x01
  | .busWr => 0x02
  | .mmGet => 0x03
  | .segGet => 0x10
  | .segSet => 0x11
  | .segCopy => 0x12
  | .segSize => 0x13
  | .segAttach => 0x14
  | .drvStepPhase => 0x20
  | .drvShift => 0x21
  | .drvStep => 0x22
  | .drvPosition => 0x23
  | .drvGetHead => 0x24
  | .drvGetFlags => 0x25
  | .drvSetFlags => 0x26
  | .drvGetImagetype => 0x27
  | .drvSetImagetype => 0x28
  | .reset => 0xF0

/-- Every operation, in the table's order. -/
def Op.all : List Op :=
  [.busRd, .busWr, .mmGet, .segGet, .segSet, .segCopy, .segSize, .segAttach, .drvStepPhase, .drvShift, .drvStep,
   .drvPosition, .drvGetHead, .drvGetFlags, .drvSetFlags, .drvGetImagetype, .drvSetImagetype, .reset]

/-- The operation an OP value selects, none for a reserved one (30_encoding.md R69). -/
def opOfCode (c : BitVec 8) : Option Op := Op.all.find? fun o => o.code == c

/-- The fields each transaction reads, as the opcode map lists them (30_encoding.md R78). -/
def Op.fieldsRead : Op → List FieldName
  | .busRd => [.addr16]
  | .busWr => [.addr16, .data8]
  | .mmGet => []
  | .segGet => [.sel, .drv, .imm24]
  | .segSet => [.sel, .drv, .imm24, .data8]
  | .segCopy => [.sel, .drv, .imm24, .addr16]
  | .segSize => [.sel, .drv]
  | .segAttach => [.sel, .drv, .imm24]
  | .drvStepPhase => [.drv, .addr16]
  | .drvShift => [.drv, .imm24]
  | .drvStep => [.drv, .imm24]
  | .drvPosition => [.drv]
  | .drvGetHead => [.drv]
  | .drvGetFlags => [.drv]
  | .drvSetFlags => [.drv, .data8]
  | .drvGetImagetype => [.drv]
  | .drvSetImagetype => [.drv, .data8]
  | .reset => []

/-- The fields of a word, by the bit ranges of 30_encoding.md R68. -/
def unpack (w : TxnWord) : TxnFields where
  op     := w.extractLsb' 0 8
  sel    := w.extractLsb' 8 3
  rsv    := w.extractLsb' 11 1
  drv    := w.extractLsb' 12 4
  addr16 := w.extractLsb' 16 16
  data8  := w.extractLsb' 32 8
  imm24  := w.extractLsb' 40 24

/-- The value of a field. -/
def TxnFields.value (f : TxnFields) : FieldName → Nat
  | .sel => f.sel.toNat
  | .drv => f.drv.toNat
  | .addr16 => f.addr16.toNat
  | .data8 => f.data8.toNat
  | .imm24 => f.imm24.toNat

/-- `w = {IMM24, DATA8, ADDR16, DRV, RSV, SEL, OP}` (30_encoding.md R68). -/
def TxnFields.pack (f : TxnFields) : TxnWord :=
  f.imm24 ++ f.data8 ++ f.addr16 ++ f.drv ++ f.rsv ++ f.sel ++ f.op

/-- `imm = sext_24(IMM24)` (30_encoding.md R74). -/
def TxnFields.imm (f : TxnFields) : Int := f.imm24.toInt

/-- SEL and DRV name a segment (30_encoding.md R70, R71). -/
def TxnFields.segRef (f : TxnFields) : Except DecodeError SegRef :=
  match f.sel.toNat with
  | 0 => .ok .main
  | 1 => .ok .aux
  | 2 => .ok .rom
  | 3 => .ok (.buf .data f.drv)
  | 4 => .ok (.buf .image f.drv)
  | _ => .error .reservedSel

/-- SEL names the buffer SEG_ATTACH creates: 3 or 4 only (40_segment.md R97). -/
def TxnFields.bufSel (f : TxnFields) : Except DecodeError BufSel :=
  match f.sel.toNat with
  | 0 => .error .attachSel
  | 1 => .error .attachSel
  | 2 => .error .attachSel
  | 3 => .ok .data
  | 4 => .ok .image
  | _ => .error .reservedSel

/-- The ImageType whose code is DATA8[1:0]; bits 7 .. 2 are ignored and code 3 is reserved (42_drive.md R136). -/
def TxnFields.imageType (f : TxnFields) : Except DecodeError ImageType :=
  match (f.data8.extractLsb' 0 2).toNat with
  | 0 => .ok .dos33
  | 1 => .ok .prodos
  | 2 => .ok .nibble
  | _ => .error .reservedImageType

/-- The payload of a word: exactly `n` bytes follow it (30_encoding.md R76). -/
def takePayload (n : Nat) (payload : List Byte) : Except DecodeError (List Byte) :=
  if payload.length < n then .error .shortPayload
  else if n < payload.length then .error .strayPayload
  else .ok payload

/-- The transaction of an operation, from the fields that it reads (30_encoding.md R78). -/
def decodeOp (f : TxnFields) (payload : List Byte) : Op → Except DecodeError Instr
  | .busRd => .ok (.busRd f.addr16)
  | .busWr => .ok (.busWr f.addr16 f.data8)
  | .mmGet => .ok .mmGet
  | .segGet => f.segRef.map fun r => .segGet r f.imm
  | .segSet => f.segRef.map fun r => .segSet r f.imm f.data8
  | .segCopy => f.segRef.map fun r => .segCopy r f.imm payload
  | .segSize => f.segRef.map fun r => .segSize r
  | .segAttach => f.bufSel.bind fun b => if f.imm < 0 then .error .attachLength else .ok (.segAttach b f.drv f.imm.toNat)
  | .drvStepPhase => .ok (.drvStepPhase f.drv f.addr16)
  | .drvShift => .ok (.drvShift f.drv f.imm)
  | .drvStep => .ok (.drvStep f.drv f.imm)
  | .drvPosition => .ok (.drvPosition f.drv)
  | .drvGetHead => .ok (.drvGetHead f.drv)
  | .drvGetFlags => .ok (.drvGetFlags f.drv)
  | .drvSetFlags => .ok (.drvSetFlags f.drv f.data8)
  | .drvGetImagetype => .ok (.drvGetImagetype f.drv)
  | .drvSetImagetype => f.imageType.map fun t => .drvSetImagetype f.drv t
  | .reset => .ok .reset

/-- How many payload bytes follow a word of this operation (30_encoding.md R76). -/
def payloadLen (f : TxnFields) : Op → Nat
  | .segCopy => f.addr16.toNat
  | _ => 0

/-- The decoder: total on every word and payload, rejecting every reserved encoding by name (30_encoding.md R81).
DRV >= N_DRIVES depends on the configuration and is refused where the transaction runs (log 5). -/
def decode (t : Txn) : Except DecodeError Instr :=
  let f := unpack t.word
  if f.rsv = 1 then .error .reservedBit
  else
    match opOfCode f.op with
    | none => .error .reservedOp
    | some o => (takePayload (payloadLen f o) t.payload).bind fun p => decodeOp f p o

/-- SEL of a segment (30_encoding.md R70). -/
def SegRef.sel : SegRef → BitVec 3
  | .main => 0
  | .aux => 1
  | .rom => 2
  | .buf .data _ => 3
  | .buf .image _ => 4

/-- DRV of a segment; 0 for Main, Aux and Rom (30_encoding.md R71, 60_exceptions.md R148). -/
def SegRef.drv : SegRef → DriveIx
  | .buf _ d => d
  | _ => 0

/-- The 2-bit code of an ImageType (10_state.md R36). -/
def ImageType.code : ImageType → BitVec 2
  | .dos33 => 0
  | .prodos => 1
  | .nibble => 2

/-- A word of the operation with every other field 0. -/
def TxnFields.ofOp (o : Op) : TxnFields where
  op := o.code
  sel := 0
  rsv := 0
  drv := 0
  addr16 := 0
  data8 := 0
  imm24 := 0

/-- The field of an integer operand. -/
def immBits (i : Int) : BitVec 24 := BitVec.ofInt 24 i

/-- The fields of a transaction's word; a field the transaction ignores is 0 (30_encoding.md R89). -/
def Instr.fields (i : Instr) : TxnFields :=
  let f := TxnFields.ofOp i.op
  match i with
  | .busRd a => { f with addr16 := a }
  | .busWr a v => { f with addr16 := a, data8 := v }
  | .mmGet => f
  | .segGet r k => { f with sel := r.sel, drv := r.drv, imm24 := immBits k }
  | .segSet r k v => { f with sel := r.sel, drv := r.drv, imm24 := immBits k, data8 := v }
  | .segCopy r k bytes => { f with sel := r.sel, drv := r.drv, imm24 := immBits k, addr16 := BitVec.ofNat 16 bytes.length }
  | .segSize r => { f with sel := r.sel, drv := r.drv }
  | .segAttach b d n => { f with sel := (SegRef.buf b d).sel, drv := d, imm24 := immBits n }
  | .drvStepPhase d a => { f with drv := d, addr16 := a }
  | .drvShift d k => { f with drv := d, imm24 := immBits k }
  | .drvStep d k => { f with drv := d, imm24 := immBits k }
  | .drvPosition d => { f with drv := d }
  | .drvGetHead d => { f with drv := d }
  | .drvGetFlags d => { f with drv := d }
  | .drvSetFlags d v => { f with drv := d, data8 := v }
  | .drvGetImagetype d => { f with drv := d }
  | .drvSetImagetype d t => { f with drv := d, data8 := t.code.setWidth 8 }
  | .reset => f

/-- The payload of a transaction (30_encoding.md R76). -/
def Instr.payload : Instr → List Byte
  | .segCopy _ _ bytes => bytes
  | _ => []

/-- The encoder. -/
def encode (i : Instr) : Txn where
  word := i.fields.pack
  payload := i.payload

/-- Bytes `64 + 8k ..` of a transaction's bits: its payload, as the bits of spec/opcode_table.json's numbering go on
past the word. -/
def payloadOfBits (n bits : Nat) : List Byte :=
  (List.range n).map fun k => BitVec.ofNat 8 (bits >>> (64 + 8 * k))

/-- The transaction whose bits are `w`, of which the table numbers `nbits` and the rest are 0: a SEG_COPY word brings
ADDR16 payload bytes with it, which are 0 where the table gives them no bits (30_encoding.md R76). -/
def txnOfTableWord (nbits w : Nat) : Txn :=
  let bits := w % 2 ^ nbits
  let word := BitVec.ofNat 64 bits
  let f := unpack word
  let n := match opOfCode f.op with
    | none => 0
    | some o => payloadLen f o
  { word := word, payload := payloadOfBits n bits }

/-- What the decoder reads from the instruction whose bits are `w`. -/
def decodeTableWord (nbits w : Nat) : Option Instr :=
  match decode (txnOfTableWord nbits w) with
  | .ok i => some i
  | .error _ => none

/-! The assembler text of a transaction (30_encoding.md R89, the spec's decision D34): hexadecimal CPU addresses and bytes,
decimal integers. -/

def hexDigit (n : Nat) : String :=
  match n with
  | 0 => "0" | 1 => "1" | 2 => "2" | 3 => "3" | 4 => "4" | 5 => "5" | 6 => "6" | 7 => "7"
  | 8 => "8" | 9 => "9" | 10 => "A" | 11 => "B" | 12 => "C" | 13 => "D" | 14 => "E" | _ => "F"

def asmByte (v : Byte) : String := "$" ++ hexDigit (v.toNat / 16) ++ hexDigit (v.toNat % 16)

def asmAddr (a : Addr) : String :=
  "$" ++ hexDigit (a.toNat / 4096) ++ hexDigit (a.toNat / 256 % 16) ++ hexDigit (a.toNat / 16 % 16) ++ hexDigit (a.toNat % 16)

def asmInt (i : Int) : String := "#" ++ toString i

def asmDrive (d : DriveIx) : String := "d" ++ toString d.toNat

def SegRef.asm : SegRef → String
  | .main => "main"
  | .aux => "aux"
  | .rom => "rom"
  | .buf .data d => "data." ++ asmDrive d
  | .buf .image d => "image." ++ asmDrive d

def ImageType.asm : ImageType → String
  | .dos33 => "dos33"
  | .prodos => "prodos"
  | .nibble => "nibble"

def Instr.asm : Instr → String
  | .busRd a => "rd " ++ asmAddr a
  | .busWr a v => "wr " ++ asmAddr a ++ ", #" ++ asmByte v
  | .mmGet => "mm.get"
  | .segGet r i => "seg.get " ++ r.asm ++ ", " ++ asmInt i
  | .segSet r i v => "seg.set " ++ r.asm ++ ", " ++ asmInt i ++ ", #" ++ asmByte v
  | .segCopy r i bytes => "seg.copy " ++ r.asm ++ ", " ++ asmInt i ++ ", [" ++ ", ".intercalate (bytes.map asmByte) ++ "]"
  | .segSize r => "seg.size " ++ r.asm
  | .segAttach b d n => "seg.attach " ++ (SegRef.buf b d).asm ++ ", " ++ asmInt n
  | .drvStepPhase d a => "phase " ++ asmDrive d ++ ", " ++ asmAddr a
  | .drvShift d k => "shift " ++ asmDrive d ++ ", " ++ asmInt k
  | .drvStep d k => "step " ++ asmDrive d ++ ", " ++ asmInt k
  | .drvPosition d => "pos " ++ asmDrive d
  | .drvGetHead d => "head " ++ asmDrive d
  | .drvGetFlags d => "flags.get " ++ asmDrive d
  | .drvSetFlags d v => "flags.set " ++ asmDrive d ++ ", #" ++ asmByte v
  | .drvGetImagetype d => "itype.get " ++ asmDrive d
  | .drvSetImagetype d t => "itype.set " ++ asmDrive d ++ ", " ++ t.asm
  | .reset => "reset"

end Sys2Proof
end

