-- ==== Sys2Proof/Config.lean ====
section
/-! DEFINITION. What is fixed for a machine and is not state: the geometry constants (00_scope.md R6), the parameters the
host chooses before RESET (00_scope.md R7, 10_state.md R40), and the free values the environment supplies (00_scope.md R13). -/

namespace Sys2Proof

/-! The geometry constants, "must be reproduced exactly for format compatibility" (00_scope.md R6, 42_drive.md R140). -/

def Geometry.tracks : Nat := 35
def Geometry.sectorsPerTrack : Nat := 16
def Geometry.logicalSectorLen : Nat := 256
def Geometry.logicalTrackLen : Nat := 4096
def Geometry.physSectorLen : Nat := 0x1A0
def Geometry.physSectorHeaderLen : Nat := 0x13
def Geometry.physTrackHeaderLen : Nat := 0x30
def Geometry.physTrackLen : Nat := 6704
def Geometry.nibImageLen : Nat := 234640
def Geometry.dosImageLen : Nat := 143360
def Geometry.maxSteps : Nat := 70

/-- ROM_SIZE, "Fixed 0x4000" (00_scope.md R7, the spec's decision D16). -/
def romSize : Nat := 0x4000

/-- The eight flags of MemMode, in the order of their bits (10_state.md R22; the bit numbers are the spec's decision D4). -/
inductive ModeFlag where
  | readAux | writeAux | store80 | page2 | hires | expROM | slotCxROM | slotC3ROM
deriving DecidableEq, Repr

/-- A soft-switch trap (10_state.md R40): the three kinds of 41_bus.md R114 to R116. -/
inductive Trap where
  | probe (f : ModeFlag)
  | set (f : ModeFlag)
  | unset (f : ModeFlag)
deriving DecidableEq, Repr

/-- One row of a switch table: an address and its two 8-bit trap descriptors (30_encoding.md R84). -/
structure SwitchRow where
  addr : Addr
  rd   : Byte
  wr   : Byte
deriving DecidableEq, Repr

/-- The parameters of 00_scope.md R7. "A model takes each of these as an argument or fixes the default shown": this
model takes them, and carries them in `State.cfg` (log 5). -/
structure Config where
  /-- RAM_SIZE: the byte length of Main and of Aux. -/
  ramSize : Nat
  /-- N_DRIVES: the number of drives. -/
  nDrives : Nat
  /-- OVERRIDE_80STORE: whether the display-page override of 41_bus.md R107 is built. -/
  override80Store : Bool
  /-- SWITCH_TABLE: an address that no row names has no trap (30_encoding.md R84). -/
  switchTable : List SwitchRow
  /-- MEMMODE_RESET: MemMode after RESET. -/
  memModeReset : Byte
deriving DecidableEq, Repr

/-- `draw ExtIoRead(a)` (00_scope.md R13, 41_bus.md R110): the byte an out-of-block I/O device returns at the `k`-th
draw. A free value: nothing is known of it (log 6). -/
opaque Config.extIoRead (k : Nat) (a : Addr) : Byte

/-- `draw PeriphRead(a)` (00_scope.md R13, 41_bus.md R111): the byte a peripheral-card ROM returns at the `k`-th draw.
A free value (log 6). -/
opaque Config.periphRead (k : Nat) (a : Addr) : Byte

/-- `draw Unspec` for cell `i` of the segment that creation number `k` made (10_state.md R27, R29; 40_segment.md R97):
what the cell holds until it is written. A free value (log 7). -/
opaque Config.unspec (k : Nat) (i : Nat) : Byte

end Sys2Proof
end

