-- ==== Sys2Proof/Machine/SwitchTable.lean ====
section
/-! DEFINITION. The soft-switch table: its descriptors, its lookup, its well-formedness, the default table, and the default
configuration (30_encoding.md R84 to R86, 00_scope.md R7). -/

namespace Sys2Proof.Machine

/-- The bit of a flag in MemMode (10_state.md R22, the spec's decision D4). -/
def flagBit : ModeFlag → Nat
  | .readAux => 0
  | .writeAux => 1
  | .store80 => 2
  | .page2 => 3
  | .hires => 4
  | .expROM => 5
  | .slotCxROM => 6
  | .slotC3ROM => 7

/-- The flag of a MemMode bit number 0 .. 7. -/
def flagOfBit (n : Nat) : ModeFlag :=
  match n with
  | 0 => .readAux
  | 1 => .writeAux
  | 2 => .store80
  | 3 => .page2
  | 4 => .hires
  | 5 => .expROM
  | 6 => .slotCxROM
  | _ => .slotC3ROM

/-- The trap an 8-bit descriptor encodes: kind in `t[1:0]`, flag in `t[4:2]` (30_encoding.md R84). -/
def trapOf (t : Byte) : Option Trap :=
  let f := flagOfBit (t.toNat / 4 % 8)
  match t.toNat % 4 with
  | 1 => some (.probe f)
  | 2 => some (.set f)
  | 3 => some (.unset f)
  | _ => none

/-- The entry of an address: the first row that names it; "an address without an entry has (none, none)"
(30_encoding.md R84). -/
def switchEntry (table : List SwitchRow) (a : Addr) : Option SwitchRow := table.find? fun r => r.addr == a

/-- The read trap of an address (41_bus.md R109). -/
def readTrap (table : List SwitchRow) (a : Addr) : Option Trap := (switchEntry table a).bind fun r => trapOf r.rd

/-- The write trap of an address (41_bus.md R109). -/
def writeTrap (table : List SwitchRow) (a : Addr) : Option Trap := (switchEntry table a).bind fun r => trapOf r.wr

/-- `t[7:5] = 0` (30_encoding.md R85 (b)). -/
def descriptorOk (t : Byte) : Bool := decide (t.toNat < 32)

/-- One row of a well-formed table: its address is at least 0xC000 if a descriptor of it has a kind, and bits 7 .. 5 of
both descriptors are 0 (30_encoding.md R85). -/
def switchRowOk (r : SwitchRow) : Bool :=
  (decide (0xC000 ≤ r.addr.toNat) || ((trapOf r.rd).isNone && (trapOf r.wr).isNone))
    && descriptorOk r.rd && descriptorOk r.wr

/-- A well-formed switch table (30_encoding.md R85). -/
def tableOk (table : List SwitchRow) : Bool := table.all switchRowOk

/-- The default switch table (30_encoding.md R86, from general knowledge, the spec's decision D12). -/
def defaultSwitchTable : List SwitchRow :=
  [ ⟨0xC000, 0x00, 0x0B⟩, -- 80STOREOFF
    ⟨0xC001, 0x00, 0x0A⟩, -- 80STOREON
    ⟨0xC002, 0x00, 0x03⟩, -- RDMAINRAM
    ⟨0xC003, 0x00, 0x02⟩, -- RDCARDRAM
    ⟨0xC004, 0x00, 0x07⟩, -- WRMAINRAM
    ⟨0xC005, 0x00, 0x06⟩, -- WRCARDRAM
    ⟨0xC006, 0x00, 0x1A⟩, -- SETSLOTCXROM
    ⟨0xC007, 0x00, 0x1B⟩, -- SETINTCXROM
    ⟨0xC00A, 0x00, 0x1F⟩, -- SETINTC3ROM
    ⟨0xC00B, 0x00, 0x1E⟩, -- SETSLOTC3ROM
    ⟨0xC013, 0x01, 0x00⟩, -- RDRAMRD
    ⟨0xC014, 0x05, 0x00⟩, -- RDRAMWRT
    ⟨0xC015, 0x19, 0x00⟩, -- RDCXROM
    ⟨0xC017, 0x1D, 0x00⟩, -- RDC3ROM
    ⟨0xC018, 0x09, 0x00⟩, -- RD80STORE
    ⟨0xC01C, 0x0D, 0x00⟩, -- RDPAGE2
    ⟨0xC01D, 0x11, 0x00⟩, -- RDHIRES
    ⟨0xC054, 0x0F, 0x0F⟩, -- PAGE2OFF
    ⟨0xC055, 0x0E, 0x0E⟩, -- PAGE2ON
    ⟨0xC056, 0x13, 0x13⟩, -- HIRESOFF
    ⟨0xC057, 0x12, 0x12⟩ ] -- HIRESON

/-- The defaults of 00_scope.md R7. -/
def defaultConfig : Config where
  ramSize := 0x10000
  nDrives := 2
  override80Store := true
  switchTable := defaultSwitchTable
  memModeReset := 0x00

end Sys2Proof.Machine
end

