-- ==== Sys2Proof/Machine/State.lean ====
section
/-! DEFINITION. The state of the block (10_state.md R21) with the mark of a refused run (60_exceptions.md R153) and the
model's own fields (log 1, 3, 5, 6) beside it, the reasons a step can stop, and the state after RESET (10_state.md R42). -/

namespace Sys2Proof.Machine

/-- A segment: a fixed-length sequence of 8-bit cells (10_state.md R25). `cells` lists the cells that have been written,
addresses strictly rising; every other cell holds the free value `Config.unspec seed i` (log 7, log 8). -/
structure Segment where
  len   : Nat
  /-- The number of the creation that made the segment: which free values its unwritten cells hold (log 6). -/
  seed  : Nat
  cells : List Host.Cell
deriving DecidableEq, Repr

/-- Drive.Mode (10_state.md R37). -/
inductive HeadMode where
  | read | write
deriving DecidableEq, Repr

/-- One drive (10_state.md R30 to R38). -/
structure Drive where
  phase        : Int
  trackPos     : Int
  sectorPos    : Int
  data         : Option Segment
  image        : Option Segment
  imageType    : ImageType
  mode         : HeadMode
  online       : Bool
  writeProtect : Bool
  locked       : Bool
deriving DecidableEq, Repr

/-- The record of a fatal fault (10_state.md R39, 60_exceptions.md R148). -/
structure FaultRecord where
  code : BitVec 8
  sel  : BitVec 3
  drv  : BitVec 4
  addr : Int
deriving DecidableEq, Repr

/-- The response of a transaction (30_encoding.md R77). -/
inductive Response where
  | byte (v : Byte)
  | int (n : Int)
  | copyOk (count : Nat)
  | copyErr (code : Byte)
  | head (phase trackPos sectorPos : Int)
  | done
deriving DecidableEq, Repr

/-- The state. `memMode` to `fault` are the record of 10_state.md R21, `refused` is the mark of 60_exceptions.md R153, and
the other fields are the model's own. -/
structure State where
  /-- The configuration, "a parameter of every step" (10_state.md R21); no step changes it (log 5). -/
  cfg     : Config
  memMode : Byte
  main    : Segment
  aux     : Segment
  rom     : Segment
  drives  : List Drive
  fault   : Option FaultRecord
  /-- Whether a transaction of the run has been refused: "the mark is kept for the rest of the run" (60_exceptions.md R153,
  log 12). No state of the block, and no transaction reads it. -/
  refused : Bool
  /-- How many draws of free values have been taken (log 6). -/
  draws   : Nat
  /-- The transactions presented and not yet run, in their total order (20_memory.md R60, log 1). -/
  pending : List Txn
  /-- The response of the last transaction (30_encoding.md R77, log 3). -/
  resp    : Option Response
  /-- What the last transaction presented to the external I/O port (41_bus.md R106, log 3). -/
  extOut  : Option (Addr × Byte)
deriving DecidableEq, Repr

/-- Why the machine has no step. -/
inductive Fault where
  /-- Raised by every step and every meaning in a faulted state: a fatal fault `r` was taken earlier, and "no transaction
  has a step" (60_exceptions.md R149). Safe: the machine stops. -/
  | halted (r : FaultRecord)
deriving DecidableEq, Repr

/-- Why the model gives a transaction no meaning (60_exceptions.md R153). A refused encoding is one of these outcomes in a
faulted state alone; elsewhere the run goes on, marked (`refuse`, log 12). -/
inductive Refusal where
  /-- Raised by an arm of exec whose instruction has no meaning yet. Safe. -/
  | notModelled (mnemonic : String)
  /-- Raised by step, in a faulted state, for a presented transaction that the decoder rejects (30_encoding.md R81). Safe. -/
  | reservedEncoding (e : DecodeError)
  /-- Raised by a meaning that reads DRV, in a faulted state, where DRV >= N_DRIVES (30_encoding.md R71, R81). Safe. -/
  | driveOutOfRange (d : DriveIx)
  /-- Raised by step under a switch table that is not well-formed: "no transaction runs under it" (30_encoding.md
  R85). Safe. -/
  | malformedSwitchTable
deriving DecidableEq, Repr

/-- A segment just created: every cell `draw Unspec` (40_segment.md R97, 70_reset_and_hazards.md R165). -/
def Segment.fresh (len seed : Nat) : Segment := { len := len, seed := seed, cells := [] }

/-- A drive after RESET (10_state.md R42). -/
def Drive.initial : Drive where
  phase := 0
  trackPos := 0
  sectorPos := 0
  data := none
  image := none
  imageType := .dos33
  mode := .read
  online := false
  writeProtect := false
  locked := false

/-- The machine right after RESET with the default configuration (10_state.md R42, 70_reset_and_hazards.md R166). Nothing
is presented or refused yet; the three segments are creations 0, 1 and 2. -/
def State.reset : State where
  cfg := defaultConfig
  memMode := defaultConfig.memModeReset
  main := Segment.fresh defaultConfig.ramSize 0
  aux := Segment.fresh defaultConfig.ramSize 1
  rom := Segment.fresh romSize 2
  drives := List.replicate defaultConfig.nDrives Drive.initial
  fault := none
  refused := false
  draws := 3
  pending := []
  resp := none
  extOut := none

end Sys2Proof.Machine
end

