-- ==== Sys2Proof/Machine/Ops.lean ====
section
/-! DEFINITION. The operations over memory and state that the meanings share: cells and segments (10_state.md R25,
40_segment.md), responding (30_encoding.md R77), the free values (00_scope.md R13), the fatal fault (60_exceptions.md R149),
the order of the outcomes (60_exceptions.md R154) and creation (70_reset_and_hazards.md R165). -/

namespace Sys2Proof.Machine

/-! ## Cells -/

/-- The byte listed at an address. -/
def cellAt : List Host.Cell → Nat → Option Byte
  | [], _ => none
  | (k, v) :: rest, a => if a = k then some v else cellAt rest a

/-- The list with `v` at `a`, in its place in the rising order. -/
def putCell : List Host.Cell → Nat → Byte → List Host.Cell
  | [], a, v => [(a, v)]
  | (k, w) :: rest, a, v =>
    if a < k then (a, v) :: (k, w) :: rest
    else if a = k then (a, v) :: rest
    else (k, w) :: putCell rest a v

/-- Addresses strictly rising. -/
def rising : List Host.Cell → Bool
  | [] => true
  | [_] => true
  | (j, _) :: (k, w) :: rest => decide (j < k) && rising ((k, w) :: rest)

/-- The canonical form of a segment (log 8): listed addresses strictly rising and inside the segment. -/
def Segment.wf (g : Segment) : Bool := rising g.cells && g.cells.all fun c => decide (c.1 < g.len)

/-- The byte written to a cell, none where nothing has been written since the segment was created. -/
def Segment.cell? (g : Segment) (i : Nat) : Option Byte := cellAt g.cells i

/-- `cells[i]`: the byte written last, and until then the cell's `draw Unspec` (10_state.md R27; log 7). -/
def Segment.read (g : Segment) (i : Nat) : Byte :=
  match g.cell? i with
  | some v => v
  | none => Config.unspec g.seed i

/-- `cells[i] <- v`. -/
def Segment.write (g : Segment) (i : Nat) (v : Byte) : Segment := { g with cells := putCell g.cells i v }

/-- `cells[i], cells[i + 1], ... <- bytes` (40_segment.md R95). -/
def Segment.writeBytes (g : Segment) (i : Nat) : List Byte → Segment
  | [] => g
  | v :: rest => (g.write i v).writeBytes (i + 1) rest

/-- `0 <= i < len` (10_state.md R25). -/
def inBounds (i : Int) (len : Nat) : Bool := decide (0 ≤ i) && decide (i < len)

/-! ## Drives and segments of the state -/

/-- A drive's Data or Image. -/
def Drive.buf (D : Drive) : BufSel → Option Segment
  | .data => D.data
  | .image => D.image

/-- The drive with another Data or Image. -/
def Drive.setBuf (b : BufSel) (g : Segment) (D : Drive) : Drive :=
  match b with
  | .data => { D with data := some g }
  | .image => { D with image := some g }

/-- `S.drive[d] <- D`. -/
def State.setDrive (s : State) (d : DriveIx) (D : Drive) : State := { s with drives := s.drives.set d.toNat D }

/-- `SegOf(sel, d)` (40_segment.md R92): none for an absent Data or Image. -/
def State.segOf (s : State) : SegRef → Option Segment
  | .main => some s.main
  | .aux => some s.aux
  | .rom => some s.rom
  | .buf b d => (s.drives[d.toNat]?).bind fun D => D.buf b

/-- `SegOf(sel, d) <- g`. -/
def State.setSeg (s : State) (r : SegRef) (g : Segment) : State :=
  match r with
  | .main => { s with main := g }
  | .aux => { s with aux := g }
  | .rom => { s with rom := g }
  | .buf b d => { s with drives := s.drives.modify d.toNat (Drive.setBuf b g) }

/-- `len(sel, d)`: 0 for an absent Data or Image (40_segment.md R92, R99). -/
def State.segLen (s : State) (r : SegRef) : Nat :=
  match s.segOf r with
  | some g => g.len
  | none => 0

/-- The read of SEG_GET and of the CPU bus (40_segment.md R93, R101): none out of bounds, where an absent buffer has
length 0 (R99). -/
def State.segGet? (s : State) (r : SegRef) (i : Int) : Option Byte :=
  match s.segOf r with
  | some g => if inBounds i g.len then some (g.read i.toNat) else none
  | none => none

/-- The write of SEG_SET and of the CPU bus (40_segment.md R94, R101): none out of bounds. -/
def State.segSet? (s : State) (r : SegRef) (i : Int) (v : Byte) : Option State :=
  match s.segOf r with
  | some g => if inBounds i g.len then some (s.setSeg r (g.write i.toNat v)) else none
  | none => none

/-- The bulk write of SEG_COPY (40_segment.md R95): none out of bounds. An absent buffer has length 0, so only an empty
copy at 0 fits it, and that writes nothing (R99). -/
def State.segCopy? (s : State) (r : SegRef) (start : Int) (bytes : List Byte) : Option State :=
  if start < 0 ∨ start + bytes.length > s.segLen r then none
  else
    match s.segOf r with
    | some g => some (s.setSeg r (g.writeBytes start.toNat bytes))
    | none => some s

/-! ## Answers -/

/-- The transaction completes with a response (30_encoding.md R77). -/
def State.respond (s : State) (r : Response) : State := { s with resp := some r, extOut := none }

/-- The transaction completes and presents `(a, v)` to the external I/O port (41_bus.md R106). -/
def State.presentExt (s : State) (a : Addr) (v : Byte) : State := { s with resp := some .done, extOut := some (a, v) }

/-- The next free value has been drawn (00_scope.md R13; log 6). -/
def State.drawn (s : State) : State := { s with draws := s.draws + 1 }

/-! ## The fatal fault and the order of the outcomes -/

def faultSegGet : BitVec 8 := 0x01
def faultSegSet : BitVec 8 := 0x02
def faultBus : BitVec 8 := 0x03
def errCopyBounds : Byte := 0x10

/-- The record of a fault at address `i` of segment `r` (60_exceptions.md R148): drv is 0 when SEL < 3. -/
def faultRecord (code : BitVec 8) (sel : BitVec 3) (drv : DriveIx) (i : Int) : FaultRecord :=
  { code := code, sel := sel, drv := drv, addr := i }

/-- `raise Fatal(code, info)` (60_exceptions.md R149): taken on the state before the transaction, so that no write of it
takes effect; the record is stored, and no response is given. -/
def State.raiseFatal (s : State) (r : FaultRecord) : State := { s with fault := some r, resp := none, extOut := none }

/-- "In a state with S.Fault ≠ none, no transaction has a step" (60_exceptions.md R149): the second check of R154. -/
def running (s : State) (k : Host.Outcome State Fault Refusal) : Host.Outcome State Fault Refusal :=
  match s.fault with
  | some r => .fault (.halted r)
  | none => k

/-- The run is marked as refused, and no state of the block changes (60_exceptions.md R153); a refused transaction has no
response (log 3). -/
def State.markRefused (s : State) : State := { s with refused := true, resp := none, extOut := none }

/-- `refuse(reason)` (00_scope.md R12): the first check of 60_exceptions.md R154. The run goes on, marked; in a faulted state,
where it has ended (00_scope.md R17) and nothing has a step (R149), the outcome is the refusal alone (log 12). -/
def refuse (reason : Refusal) (s : State) : Host.Outcome State Fault Refusal :=
  match s.fault with
  | some _ => .refused reason
  | none => .next s.markRefused

/-- The drive of a transaction: DRV >= N_DRIVES is refused (30_encoding.md R81) before the faulted state is looked at
(60_exceptions.md R154). -/
def withDrive (d : DriveIx) (s : State) (k : Drive → Host.Outcome State Fault Refusal) :
    Host.Outcome State Fault Refusal :=
  match s.drives[d.toNat]? with
  | none => refuse (.driveOutOfRange d) s
  | some D => running s (k D)

/-- The segment of a transaction: the drive of a buffer must exist (30_encoding.md R71, R81). -/
def withSeg (r : SegRef) (s : State) (k : Host.Outcome State Fault Refusal) : Host.Outcome State Fault Refusal :=
  match r with
  | .buf _ d => withDrive d s fun _ => k
  | .main => running s k
  | .aux => running s k
  | .rom => running s k

/-- Completion, or the fatal fault where the bounds check failed (60_exceptions.md R154). -/
def nextOrFatal (s : State) (r : FaultRecord) (t : Option State) : Host.Outcome State Fault Refusal :=
  match t with
  | some s' => .next s'
  | none => .next (s.raiseFatal r)

/-! ## Creation and idling -/

/-- What RESET does (70_reset_and_hazards.md R165): every field of R21 at its value of 10_state.md R42, each of the three
segments a creation of its own. The mark of a refused run is no such field, and stays (60_exceptions.md R153). -/
def State.create (s : State) : State :=
  { s with
    memMode := s.cfg.memModeReset
    main := Segment.fresh s.cfg.ramSize s.draws
    aux := Segment.fresh s.cfg.ramSize (s.draws + 1)
    rom := Segment.fresh romSize (s.draws + 2)
    drives := List.replicate s.cfg.nDrives Drive.initial
    fault := none
    draws := s.draws + 3 }

/-- A step with nothing presented: nothing advances by itself (10_state.md R20; log 2), and a faulted state has no step
(60_exceptions.md R149). -/
def idle (s : State) : Host.Outcome State Fault Refusal := running s (.next s)

end Sys2Proof.Machine
end

