-- ==== Sys2Proof/Machine/Flags.lean ====
section
/-! DEFINITION. The flags: MemMode's bits, the status byte and the three traps (41_bus.md R114 to R117), and the drive flag
byte (30_encoding.md R83). -/

namespace Sys2Proof.Machine

/-- `m[f]`. -/
def flag (m : Byte) (f : ModeFlag) : Bool := m.getLsbD (flagBit f)

/-- `1 << f`. -/
def flagMask (f : ModeFlag) : Byte := 1#8 <<< flagBit f

/-- `Status(f, m)` (41_bus.md R117). -/
def status (f : ModeFlag) (m : Byte) : Byte := if flag m f then 0x80 else 0x00

/-- `m | (1 << f)` (41_bus.md R115). -/
def setFlag (f : ModeFlag) (m : Byte) : Byte := m ||| flagMask f

/-- `m & ~(1 << f)` (41_bus.md R116). -/
def unsetFlag (f : ModeFlag) (m : Byte) : Byte := m &&& ~~~(flagMask f)

/-- `RunTrap(k, m)`: the status byte and the new MemMode (41_bus.md R114 to R116). -/
def runTrap (k : Trap) (m : Byte) : Byte × Byte :=
  match k with
  | .probe f => (status f m, m)
  | .set f => (status f (setFlag f m), setFlag f m)
  | .unset f => (status f (unsetFlag f m), unsetFlag f m)

/-- A Boolean as a bit of a byte. -/
def bitAt (b : Bool) (n : Nat) : Byte := if b then 1#8 <<< n else 0

/-- Whether Mode is Write, bit 1 of the flag byte (10_state.md R37). -/
def HeadMode.isWrite : HeadMode → Bool
  | .write => true
  | .read => false

/-- `{0000, Locked, WriteProtect, Mode, Online}` (30_encoding.md R83, 42_drive.md R132). -/
def Drive.flagByte (D : Drive) : Byte :=
  bitAt D.online 0 ||| bitAt D.mode.isWrite 1 ||| bitAt D.writeProtect 2 ||| bitAt D.locked 3

/-- The four flags from a byte; bits 7 .. 4 are ignored (42_drive.md R133). -/
def Drive.setFlagByte (v : Byte) (D : Drive) : Drive :=
  { D with
    online := v.getLsbD 0
    mode := if v.getLsbD 1 then .write else .read
    writeProtect := v.getLsbD 2
    locked := v.getLsbD 3 }

/-- The ImageType as a byte (42_drive.md R134). -/
def imageTypeByte : ImageType → Byte
  | .dos33 => 0
  | .prodos => 1
  | .nibble => 2

end Sys2Proof.Machine
end

