-- ==== Sys2Proof/Machine/Operands.lean ====
section
/-! DEFINITION. What an operand names: the address decoder of the CPU bus (41_bus.md R107 to R113), the phase decode and the
phase-transition table (30_encoding.md R87, R88), and the head position (42_drive.md). -/

namespace Sys2Proof.Machine

/-- The two RAM segments the CPU bus reaches. -/
inductive Bank where
  | main | aux
deriving DecidableEq, Repr

/-- The segment of a bank. -/
def Bank.ref : Bank → SegRef
  | .main => .main
  | .aux => .aux

/-- What a read resolves to (41_bus.md R105). -/
inductive ReadTarget where
  | ram (b : Bank) (i : Nat)
  | trap (k : Trap)
  | extIo (a : Addr)
  | rom (i : Nat)
  | periph (a : Addr)
deriving DecidableEq, Repr

/-- What a write resolves to (41_bus.md R106). -/
inductive WriteTarget where
  | ram (b : Bank) (i : Nat)
  | trap (k : Trap)
  | extIo (a : Addr)
  | discard
deriving DecidableEq, Repr

/-- `Display(a, m)` (41_bus.md R107). -/
def display (a : Addr) (m : Byte) : Bool :=
  (decide (0x0400 ≤ a.toNat) && decide (a.toNat ≤ 0x07FF))
    || (flag m .hires && decide (0x2000 ≤ a.toNat) && decide (a.toNat ≤ 0x3FFF))

/-- Whether the 80Store display-page override decides the access (41_bus.md R107, the spec's decision D7). -/
def overrides (c : Config) (a : Addr) (m : Byte) : Bool := c.override80Store && flag m .store80 && display a m

/-- A flag selects Aux when it is 1. -/
def bankOf (b : Bool) : Bank := if b then .aux else .main

/-- The RAM bank of an access whose auxiliary enable is `f`: the override (41_bus.md R107), else the enable (R108). -/
def ramBank (f : ModeFlag) (c : Config) (a : Addr) (m : Byte) : Bank :=
  if overrides c a m then bankOf (flag m .page2) else bankOf (flag m f)

/-- The Rom cell of a CPU address (20_memory.md R57). -/
def romCell (a : Addr) : Nat := a.toNat - 0xC000

/-- The windows 0xC100 .. 0xCFFF for a read (41_bus.md R111, the spec's decisions D8 and D10). -/
def romWindow (a : Addr) (m : Byte) : ReadTarget :=
  if flag m .slotCxROM = false then .rom (romCell a)
  else if 0xC300 ≤ a.toNat ∧ a.toNat ≤ 0xC3FF then
    (if flag m .slotC3ROM then .periph a else .rom (romCell a))
  else if 0xC800 ≤ a.toNat ∧ a.toNat ≤ 0xCFFF then
    (if flag m .expROM then .periph a else .rom (romCell a))
  else .periph a

/-- `Resolve(Rd, a, m)` (41_bus.md R113). -/
def resolveRead (c : Config) (a : Addr) (m : Byte) : ReadTarget :=
  if a.toNat < 0xC000 then .ram (ramBank .readAux c a m) a.toNat
  else
    match readTrap c.switchTable a with
    | some k => .trap k
    | none =>
      if a.toNat ≤ 0xC0FF then .extIo a
      else if a.toNat ≤ 0xCFFF then romWindow a m
      else .rom (romCell a)

/-- `Resolve(Wr, a, m)` (41_bus.md R113). -/
def resolveWrite (c : Config) (a : Addr) (m : Byte) : WriteTarget :=
  if a.toNat < 0xC000 then .ram (ramBank .writeAux c a m) a.toNat
  else
    match writeTrap c.switchTable a with
    | some k => .trap k
    | none => if a.toNat ≤ 0xC0FF then .extIo a else .discard

/-- The phase of an address's low nibble, none for "no phase" (30_encoding.md R87). -/
def phaseDecode (a : Addr) : Option Int :=
  match a.toNat % 16 with
  | 1 => some 1
  | 3 => some 2
  | 5 => some 3
  | 7 => some 4
  | _ => none

/-- PHASE_TABLE, 25 entries (30_encoding.md R88, the spec's decisions D18 and D19). -/
def phaseTable : List Int :=
  [0, 0, 0, 0, 0,
   0, 0, 1, 0, -1,
   0, -1, 0, 1, 0,
   0, 0, -1, 0, 1,
   0, 1, 0, -1, 0]

/-- `PHASE_TABLE[phase * 5 + newPhase]`. The index is in 1 .. 24 in every reachable state (42_drive.md R128); outside the
table the entry read is 0 (log 11). -/
def phaseStep (phase newPhase : Int) : Int := phaseTable.getD (phase * 5 + newPhase).toNat 0

/-- `Step(d, off)` (42_drive.md R125). -/
def Drive.step (off : Int) (D : Drive) : Drive :=
  { D with trackPos := max 0 (min (Geometry.maxSteps : Int) (D.trackPos + off)), sectorPos := 0 }

/-- The effect of DRV_SHIFT on its drive (42_drive.md R126). -/
def Drive.shift (off : Int) (D : Drive) : Drive :=
  if D.locked then D
  else
    let s := D.sectorPos + off
    { D with sectorPos := if s ≥ (Geometry.physTrackLen : Int) ∨ s < 0 then 0 else s }

/-- The effect of DRV_STEP_PHASE on its drive (42_drive.md R128). -/
def Drive.stepPhase (a : Addr) (D : Drive) : Drive :=
  match phaseDecode a with
  | none => D
  | some p => { D.step (phaseStep D.phase p) with phase := p }

/-- `position()` (42_drive.md R130); the division rounds toward zero (00_scope.md R9). -/
def Drive.position (D : Drive) : Int :=
  match D.data with
  | none => 0
  | some _ => D.trackPos.tdiv 2 * (Geometry.physTrackLen : Int) + D.sectorPos

end Sys2Proof.Machine
end

