-- ==== Sys2Proof/Machine/Bus.lean ====
section
/-! DEFINITION. The CPU bus and the MemMode observation (41_bus.md). -/

namespace Sys2Proof.Machine

/-- A bus read of a segment cell: the read of SEG_GET, with FAULT_BUS where the cell is out of bounds, which R7's
constraints exclude (40_segment.md R101, 60_exceptions.md R148). -/
def busReadCell (r : SegRef) (i : Nat) (s : State) : Host.Outcome State Fault Refusal :=
  nextOrFatal s (faultRecord faultBus r.sel 0 i) ((s.segGet? r i).map fun v => s.respond (.byte v))

/-- A bus write of a segment cell (40_segment.md R101). -/
def busWriteCell (r : SegRef) (i : Nat) (v : Byte) (s : State) : Host.Outcome State Fault Refusal :=
  nextOrFatal s (faultRecord faultBus r.sel 0 i) ((s.segSet? r i v).map fun t => t.respond .done)

/-- BUS_RD (41_bus.md R105). -/
def execBusRd (a : Addr) (s : State) : Host.Outcome State Fault Refusal :=
  running s <|
    match resolveRead s.cfg a s.memMode with
    | .ram b i => busReadCell b.ref i s
    | .trap k => .next ({ s with memMode := (runTrap k s.memMode).2 }.respond (.byte (runTrap k s.memMode).1))
    | .extIo x => .next (s.drawn.respond (.byte (Config.extIoRead s.draws x)))
    | .rom i => busReadCell .rom i s
    | .periph x => .next (s.drawn.respond (.byte (Config.periphRead s.draws x)))

/-- BUS_WR (41_bus.md R106). A write trap does not read `v`, and its status is discarded (R119). -/
def execBusWr (a : Addr) (v : Byte) (s : State) : Host.Outcome State Fault Refusal :=
  running s <|
    match resolveWrite s.cfg a s.memMode with
    | .ram b i => busWriteCell b.ref i v s
    | .trap k => .next ({ s with memMode := (runTrap k s.memMode).2 }.respond .done)
    | .extIo x => .next (s.presentExt x v)
    | .discard => .next (s.respond .done)

/-- MM_GET (41_bus.md R118). -/
def execMmGet (s : State) : Host.Outcome State Fault Refusal :=
  running s (.next (s.respond (.byte s.memMode)))

end Sys2Proof.Machine
end

