-- ==== Sys2Proof/Machine/Control.lean ====
section
/-! DEFINITION. RESET (70_reset_and_hazards.md). -/

namespace Sys2Proof.Machine

/-- RESET (70_reset_and_hazards.md R165): creation. It has no step in a faulted state (60_exceptions.md R149). -/
def execReset (s : State) : Host.Outcome State Fault Refusal :=
  running s (.next (s.create.respond .done))

end Sys2Proof.Machine
end

