-- ==== Sys2Proof/Machine/Drives.lean ====
section
/-! DEFINITION. The drive transactions (42_drive.md). -/

namespace Sys2Proof.Machine

/-- A transaction that changes its drive and nothing else. -/
def updateDrive (d : DriveIx) (f : Drive → Drive) (s : State) : Host.Outcome State Fault Refusal :=
  withDrive d s fun D => .next ((s.setDrive d (f D)).respond .done)

/-- A transaction that reports on its drive and changes nothing. -/
def reportDrive (d : DriveIx) (f : Drive → Response) (s : State) : Host.Outcome State Fault Refusal :=
  withDrive d s fun D => .next (s.respond (f D))

/-- DRV_STEP_PHASE (42_drive.md R128). -/
def execDrvStepPhase (d : DriveIx) (a : Addr) (s : State) : Host.Outcome State Fault Refusal :=
  updateDrive d (Drive.stepPhase a) s

/-- DRV_SHIFT (42_drive.md R126). -/
def execDrvShift (d : DriveIx) (off : Int) (s : State) : Host.Outcome State Fault Refusal :=
  updateDrive d (Drive.shift off) s

/-- DRV_STEP (42_drive.md R125). -/
def execDrvStep (d : DriveIx) (off : Int) (s : State) : Host.Outcome State Fault Refusal :=
  updateDrive d (Drive.step off) s

/-- DRV_POSITION (42_drive.md R130). -/
def execDrvPosition (d : DriveIx) (s : State) : Host.Outcome State Fault Refusal :=
  reportDrive d (fun D => .int D.position) s

/-- DRV_GET_HEAD (42_drive.md R135). -/
def execDrvGetHead (d : DriveIx) (s : State) : Host.Outcome State Fault Refusal :=
  reportDrive d (fun D => .head D.phase D.trackPos D.sectorPos) s

/-- DRV_GET_FLAGS (42_drive.md R132). -/
def execDrvGetFlags (d : DriveIx) (s : State) : Host.Outcome State Fault Refusal :=
  reportDrive d (fun D => .byte D.flagByte) s

/-- DRV_SET_FLAGS (42_drive.md R133). -/
def execDrvSetFlags (d : DriveIx) (v : Byte) (s : State) : Host.Outcome State Fault Refusal :=
  updateDrive d (Drive.setFlagByte v) s

/-- DRV_GET_IMAGETYPE (42_drive.md R134). -/
def execDrvGetImagetype (d : DriveIx) (s : State) : Host.Outcome State Fault Refusal :=
  reportDrive d (fun D => .byte (imageTypeByte D.imageType)) s

/-- DRV_SET_IMAGETYPE (42_drive.md R136). -/
def execDrvSetImagetype (d : DriveIx) (t : ImageType) (s : State) : Host.Outcome State Fault Refusal :=
  updateDrive d (fun D => { D with imageType := t }) s

end Sys2Proof.Machine
end

