-- ==== Sys2Proof/Machine/Segments.lean ====
section
/-! DEFINITION. The segment transactions (40_segment.md). -/

namespace Sys2Proof.Machine

/-- SEG_GET (40_segment.md R93). -/
def execSegGet (r : SegRef) (i : Int) (s : State) : Host.Outcome State Fault Refusal :=
  withSeg r s <|
    nextOrFatal s (faultRecord faultSegGet r.sel r.drv i) ((s.segGet? r i).map fun v => s.respond (.byte v))

/-- SEG_SET (40_segment.md R94). -/
def execSegSet (r : SegRef) (i : Int) (v : Byte) (s : State) : Host.Outcome State Fault Refusal :=
  withSeg r s <|
    nextOrFatal s (faultRecord faultSegSet r.sel r.drv i) ((s.segSet? r i v).map fun t => t.respond .done)

/-- SEG_COPY (40_segment.md R95); its bounds error is recoverable (60_exceptions.md R151). -/
def execSegCopy (r : SegRef) (start : Int) (bytes : List Byte) (s : State) : Host.Outcome State Fault Refusal :=
  withSeg r s <|
    match s.segCopy? r start bytes with
    | none => .next (s.respond (.copyErr errCopyBounds))
    | some t => .next (t.respond (.copyOk bytes.length))

/-- SEG_SIZE (40_segment.md R96). -/
def execSegSize (r : SegRef) (s : State) : Host.Outcome State Fault Refusal :=
  withSeg r s (.next (s.respond (.int (s.segLen r))))

/-- SEG_ATTACH (40_segment.md R97): a new segment of `n` cells, each `draw Unspec`. -/
def execSegAttach (b : BufSel) (d : DriveIx) (n : Nat) (s : State) : Host.Outcome State Fault Refusal :=
  withDrive d s fun D =>
    .next ((s.drawn.setDrive d (D.setBuf b (Segment.fresh n s.draws))).respond .done)

end Sys2Proof.Machine
end

