-- ==== Sys2Proof/Machine/Dispatch.lean ====
section
/-! DEFINITION. One arm per transaction (spec/opcode_table.json). -/

namespace Sys2Proof.Machine

def exec (i : Instr) (s : State) : Host.Outcome State Fault Refusal :=
  match i with
  | .busRd a => Sys2Proof.Machine.execBusRd a s
  | .busWr a v => Sys2Proof.Machine.execBusWr a v s
  | .mmGet => Sys2Proof.Machine.execMmGet s
  | .segGet r k => Sys2Proof.Machine.execSegGet r k s
  | .segSet r k v => Sys2Proof.Machine.execSegSet r k v s
  | .segCopy r start bytes => Sys2Proof.Machine.execSegCopy r start bytes s
  | .segSize r => Sys2Proof.Machine.execSegSize r s
  | .segAttach b d n => Sys2Proof.Machine.execSegAttach b d n s
  | .drvStepPhase d a => Sys2Proof.Machine.execDrvStepPhase d a s
  | .drvShift d off => Sys2Proof.Machine.execDrvShift d off s
  | .drvStep d off => Sys2Proof.Machine.execDrvStep d off s
  | .drvPosition d => Sys2Proof.Machine.execDrvPosition d s
  | .drvGetHead d => Sys2Proof.Machine.execDrvGetHead d s
  | .drvGetFlags d => Sys2Proof.Machine.execDrvGetFlags d s
  | .drvSetFlags d v => Sys2Proof.Machine.execDrvSetFlags d v s
  | .drvGetImagetype d => Sys2Proof.Machine.execDrvGetImagetype d s
  | .drvSetImagetype d t => Sys2Proof.Machine.execDrvSetImagetype d t s
  | .reset => Sys2Proof.Machine.execReset s

end Sys2Proof.Machine
end

