-- ==== Sys2Proof/Machine/Step.lean ====
section
/-! DEFINITION. One step: the next presented transaction is taken, decoded and run (20_memory.md R60, 60_exceptions.md R154). -/

namespace Sys2Proof.Machine

/-- A step. A malformed switch table is refused before any transaction (30_encoding.md R85); with nothing presented the
block idles (log 2); otherwise the transaction is refused (R81) or runs, on the state without it. -/
def step (s : State) : Host.Outcome State Fault Refusal :=
  if tableOk s.cfg.switchTable then
    match s.pending with
    | [] => idle s
    | t :: rest =>
      match decode t with
      | .error e => refuse (.reservedEncoding e) { s with pending := rest }
      | .ok i => exec i { s with pending := rest }
  else .refused .malformedSwitchTable

/-- The transaction whose bits are `w` presented next, before whatever is presented already (log 1). -/
def State.withFetchWord (s : State) (nbits w : Nat) : State :=
  { s with pending := txnOfTableWord nbits w :: s.pending }

end Sys2Proof.Machine
end

