-- ==== Sys2Proof/Safety.lean ====
section
/-! DEFINITION. What claims speak of: the invariants of a run (10_state.md R41), the constraints on the configuration
(00_scope.md R7), one byte of memory, where a transaction stores, and who may issue it. -/

namespace Sys2Proof.Machine

/-- The constraints of 00_scope.md R7, with a well-formed switch table (30_encoding.md R85). -/
abbrev ConfigOk (c : Config) : Prop :=
  0xC000 ≤ c.ramSize ∧ 1 ≤ c.nDrives ∧ c.nDrives ≤ 16 ∧ tableOk c.switchTable = true

/-- The ranges of 10_state.md R41 for one drive, and the canonical form of its buffers. -/
abbrev Drive.Ok (D : Drive) : Prop :=
  (0 ≤ D.phase ∧ D.phase ≤ 4) ∧
  (0 ≤ D.trackPos ∧ D.trackPos ≤ (Geometry.maxSteps : Int)) ∧
  (0 ≤ D.sectorPos ∧ D.sectorPos < (Geometry.physTrackLen : Int)) ∧
  D.data.all Segment.wf = true ∧ D.image.all Segment.wf = true

/-- The canonical form of all of memory (log 8). -/
abbrev Memory.wf (s : State) : Prop :=
  s.main.wf = true ∧ s.aux.wf = true ∧ s.rom.wf = true ∧
  ∀ D ∈ s.drives, D.data.all Segment.wf = true ∧ D.image.all Segment.wf = true

/-- The invariants of 10_state.md R41 and those the model adds: the constraints of R7 hold of the configuration, there are
N_DRIVES drives, and memory keeps its canonical form. -/
abbrev State.Inv (s : State) : Prop :=
  ConfigOk s.cfg ∧
  s.main.len = s.cfg.ramSize ∧ s.aux.len = s.cfg.ramSize ∧ s.rom.len = romSize ∧
  s.main.wf = true ∧ s.aux.wf = true ∧ s.rom.wf = true ∧
  s.drives.length = s.cfg.nDrives ∧
  ∀ D ∈ s.drives, D.Ok

/-- The seeds of a drive's buffers. -/
def Drive.seeds (D : Drive) : List Nat :=
  (D.data.toList ++ D.image.toList).map Segment.seed

/-- The seeds of every segment. -/
def State.seeds (s : State) : List Nat :=
  s.main.seed :: s.aux.seed :: s.rom.seed :: s.drives.flatMap Drive.seeds

/-- No two segments share a free value, and none has one that a later draw gives again: "No law relates two draws"
(00_scope.md R13; log 6). -/
abbrev State.FreshDraws (s : State) : Prop := s.seeds.Nodup ∧ ∀ k ∈ s.seeds, k < s.draws

/-- One byte of memory: cell `a` of a segment, none where the segment has no such cell. -/
def State.peek (s : State) (r : SegRef) (a : Nat) : Option Byte := s.segGet? r a

/-- Whether the transaction, run on `s`, stores to cell `a` of segment `r`: at the cell a bus write resolves to
(41_bus.md R106), at SEG_SET's address, at SEG_COPY's range where it fits, over the whole of a buffer SEG_ATTACH replaces,
and everywhere for RESET. -/
def storesTo (i : Instr) (s : State) (r : SegRef) (a : Nat) : Prop :=
  match i with
  | .busWr x _ => ∃ b, resolveWrite s.cfg x s.memMode = .ram b a ∧ b.ref = r
  | .segSet q k _ => q = r ∧ k = a
  | .segCopy q start bytes => q = r ∧ start ≤ a ∧ (a : Int) < start + bytes.length ∧ start + bytes.length ≤ s.segLen q
  | .segAttach b d _ => SegRef.buf b d = r
  | .reset => True
  | _ => False

/-- The agents' ports (00_scope.md R16). The observation transactions belong to the debug and test port (41_bus.md R118,
42_drive.md R135). -/
inductive Port where
  | cpu | controller | loader | host | debug
deriving DecidableEq, Repr

/-- The port of a transaction (00_scope.md R16). That DRV_GET_IMAGETYPE and DRV_SET_IMAGETYPE are the controller's, with the
other drive transactions, is a DESIGN CHOICE: the spec also has the loading interface set ImageType (42_drive.md R136,
70_reset_and_hazards.md R167; log 13). No meaning reads the port. -/
def Instr.port : Instr → Port
  | .busRd _ => .cpu
  | .busWr _ _ => .cpu
  | .mmGet => .debug
  | .segGet _ _ => .loader
  | .segSet _ _ _ => .loader
  | .segCopy _ _ _ => .loader
  | .segSize _ => .loader
  | .segAttach _ _ _ => .loader
  | .drvStepPhase _ _ => .controller
  | .drvShift _ _ => .controller
  | .drvStep _ _ => .controller
  | .drvPosition _ => .controller
  | .drvGetHead _ => .debug
  | .drvGetFlags _ => .controller
  | .drvSetFlags _ _ => .controller
  | .drvGetImagetype _ => .controller
  | .drvSetImagetype _ _ => .controller
  | .reset => .host

/-- The reserved encodings of 30_encoding.md R81 on a machine of `n` drives, read off the bits of the word. -/
def reservedTxn (n : Nat) (t : Txn) : Prop :=
  let op := (t.word.extractLsb' 0 8).toNat
  let sel := (t.word.extractLsb' 8 3).toNat
  let rsv := (t.word.extractLsb' 11 1).toNat
  let drv := (t.word.extractLsb' 12 4).toNat
  let isSeg := 0x10 ≤ op ∧ op ≤ 0x14
  let isDrv := 0x20 ≤ op ∧ op ≤ 0x28
  (¬ (0x01 ≤ op ∧ op ≤ 0x03) ∧ ¬ isSeg ∧ ¬ isDrv ∧ op ≠ 0xF0) ∨
  rsv = 1 ∨
  (isSeg ∧ 5 ≤ sel) ∨
  (op = 0x14 ∧ sel ≤ 2) ∨
  ((isDrv ∨ (isSeg ∧ (sel = 3 ∨ sel = 4))) ∧ n ≤ drv) ∨
  (op = 0x14 ∧ (t.word.extractLsb' 40 24).toInt < 0) ∨
  (op = 0x28 ∧ (t.word.extractLsb' 32 8).toNat % 4 = 3) ∨
  (op = 0x12 ∧ t.payload.length < (t.word.extractLsb' 16 16).toNat)

/-- Bytes follow the word that are no payload of it (30_encoding.md R76; log 4). -/
def strayTxn (t : Txn) : Prop :=
  let op := (t.word.extractLsb' 0 8).toNat
  (op = 0x12 ∧ (t.word.extractLsb' 16 16).toNat < t.payload.length) ∨ (op ≠ 0x12 ∧ t.payload ≠ [])

/-- Transactions one after another, stopping at the first that has no next state. -/
def execAll : List Instr → State → Host.Outcome State Fault Refusal
  | [], s => .next s
  | i :: rest, s =>
    match exec i s with
    | .next t => execAll rest t
    | .fault r => .fault r
    | .refused r => .refused r

/-- An address whose low nibble decodes to phase `p` (30_encoding.md R87): $C0E1, $C0E3, $C0E5, $C0E7 for 1 .. 4. -/
def phaseAddr (p : Nat) : Addr := BitVec.ofNat 16 (0xC0E0 + 2 * p - 1)

/-- `k` phase activations in ascending order 1, 2, 3, 4, 1, ... after phase `p` (42_drive.md R129). -/
def ascendingPhases (d : DriveIx) : Nat → Nat → List Instr
  | 0, _ => []
  | k + 1, p => .drvStepPhase d (phaseAddr (p % 4 + 1)) :: ascendingPhases d k (p % 4 + 1)

/-- The drive with the fields that no rule reads to decide an outcome put to their reset values (42_drive.md R139). -/
def Drive.eraseUnread (D : Drive) : Drive :=
  { D with online := false, mode := .read, writeProtect := false, imageType := .dos33, image := none }

/-- Every drive so. -/
def State.eraseUnread (s : State) : State := { s with drives := s.drives.map Drive.eraseUnread }

/-- Every drive with Locked clear. -/
def State.unlocked (s : State) : State := { s with drives := s.drives.map fun D => { D with locked := false } }

/-- The transactions that report or set the unread fields, or name an Image. -/
def touchesUnread : Instr → Bool
  | .drvGetFlags _ => true
  | .drvSetFlags _ _ => true
  | .drvGetImagetype _ => true
  | .drvSetImagetype _ _ => true
  | .segGet (.buf .image _) _ => true
  | .segSet (.buf .image _) _ _ => true
  | .segCopy (.buf .image _) _ _ => true
  | .segSize (.buf .image _) => true
  | .segAttach .image _ _ => true
  | _ => false

/-- A safe run, by its last state: no fatal fault has been taken, "S.Fault = none at the end" (60_exceptions.md R149), and
no transaction has been refused, for a claim about a run takes "no refusal" as a premise, "as it takes "no fault"" (R153). -/
def State.Safe (s : State) : Prop := s.fault = none ∧ s.refused = false

end Sys2Proof.Machine
end

