-- ==== Sys2Proof/Certificates/Slice0/Obligations.lean ====
section
/-! DEFINITION. The statements for the provers. Each docstring says which rule of spec/ the statement formalises; where a
rule carries the spec's own "[decision: ...]" or "[derived: ...]" mark, or the model's log is used, the docstring says so. -/

open Sys2Proof Sys2Proof.Machine

/-! ## Encoding and the step -/

/-- 30_encoding.md R68, R76, R78 (the spec's decisions D2, D3), R89: every transaction that the word format can carry is
what the decoder reads from its own encoding, with every operand at every value. -/
def Obligations.DecodeOfEncodeIsTheTransaction : Prop :=
  ∀ (n : Nat) (i : Instr), i.wf n = true → decode (encode i) = .ok i

/-- The converse: whatever the decoder accepts fits the word format (DRV is a 4-bit field, so 16 drives bound it), and its
canonical word, with 0 in the ignored fields (R89), means the same. -/
def Obligations.AcceptedWordsReencode : Prop :=
  ∀ (t : Txn) (i : Instr), decode t = .ok i → i.wf 16 = true ∧ decode (encode i) = .ok i

/-- 30_encoding.md R79 (the spec's decision D27): two words with the same OP, RSV and payload that agree on the fields R78
lists for their operation decode alike; in a segment transaction with SEL = 0, 1 or 2 DRV may differ too (R71, D17); RSV is
the exception; the bits of DATA8 that a flag or ImageType write does not use are ignored. -/
def Obligations.UnreadFieldsAreIgnored : Prop :=
  (∀ t u : Txn, (unpack t.word).op = (unpack u.word).op → (unpack t.word).rsv = (unpack u.word).rsv →
    t.payload = u.payload →
    (∀ o, opOfCode (unpack t.word).op = some o →
      ∀ n ∈ o.fieldsRead, (unpack t.word).value n = (unpack u.word).value n) →
    decode t = decode u) ∧
  (∀ (t u : Txn) (o : Op), (unpack t.word).op = (unpack u.word).op → (unpack t.word).rsv = (unpack u.word).rsv →
    t.payload = u.payload → opOfCode (unpack t.word).op = some o →
    o ∈ [Op.segGet, .segSet, .segCopy, .segSize, .segAttach] → (unpack t.word).sel.toNat ≤ 2 →
    (∀ n ∈ o.fieldsRead, n ≠ .drv → (unpack t.word).value n = (unpack u.word).value n) → decode t = decode u) ∧
  (∀ t : Txn, (unpack t.word).rsv = 1 → decode t = .error .reservedBit) ∧
  (∀ (s : State) (d : DriveIx) (v w : Byte), v.toNat % 16 = w.toNat % 16 →
    exec (.drvSetFlags d v) s = exec (.drvSetFlags d w) s) ∧
  (∀ t u : Txn, (unpack t.word).op = 0x28 → (unpack u.word).op = 0x28 → (unpack t.word).rsv = (unpack u.word).rsv →
    t.payload = u.payload → (unpack t.word).drv = (unpack u.word).drv →
    (unpack t.word).data8.toNat % 4 = (unpack u.word).data8.toNat % 4 → decode t = decode u)

/-- 30_encoding.md R81, 60_exceptions.md R153 (the spec's decision D27): a step that finds a reserved encoding runs nothing: it
takes the transaction away, changes no state of the block, marks the run as refused, and the run goes on. In a faulted state,
where nothing has a step, the outcome is the refusal alone (log 12). That a refused transaction has no response is log 3. -/
def Obligations.ReservedEncodingsAreRefused : Prop :=
  ∀ (s : State) (t : Txn) (rest : List Txn), tableOk s.cfg.switchTable = true → s.pending = t :: rest →
    reservedTxn s.drives.length t →
    (s.fault = none → step s = .next { s with pending := rest, refused := true, resp := none, extOut := none }) ∧
    (s.fault ≠ none → ∃ r, step s = .refused r)

/-- 60_exceptions.md R153 (D27): after a step the run is marked as refused exactly if it was marked before, for "the mark is
kept for the rest of the run", or the step refused its transaction; and only reserved encodings are refused, but for bytes
after a word that are no payload of it (the model's choice, log 4). -/
def Obligations.OnlyReservedEncodingsAreRefused : Prop :=
  ∀ s : State, tableOk s.cfg.switchTable = true →
    (∀ t, step s = .next t →
      (t.refused = true ↔ s.refused = true ∨
        ∃ u rest, s.pending = u :: rest ∧ (reservedTxn s.drives.length u ∨ strayTxn u))) ∧
    (∀ r, step s = .refused r →
      s.fault ≠ none ∧ ∃ u rest, s.pending = u :: rest ∧ (reservedTxn s.drives.length u ∨ strayTxn u))

/-- The encodings of 30_encoding.md R91 (derived there), the SEG_SET word of 95_test_vectors.md L2-A (row VA2) and the RESET
word of L2-E (row VE7) decode to the transactions they stand for. -/
def Obligations.ExampleWordsDecode : Prop :=
  decode ⟨0x00000000C0550001, []⟩ = .ok (.busRd 0xC055) ∧
  decode ⟨0x000000AA03000002, []⟩ = .ok (.busWr 0x0300 0xAA) ∧
  decode ⟨0x00000000C0E10020, []⟩ = .ok (.drvStepPhase 0 0xC0E1) ∧
  decode ⟨0xFFFFFF0000001021, []⟩ = .ok (.drvShift 1 (-1)) ∧
  decode ⟨0x0000000000020312, [0xD5, 0xAA]⟩ = .ok (.segCopy (.buf .data 0) 0 [0xD5, 0xAA]) ∧
  decode ⟨0x0001230200000111, []⟩ = .ok (.segSet .aux 0x123 0x02) ∧
  decode ⟨0x00000000000000F0, []⟩ = .ok .reset

/-- A step runs the decoded transaction, on the state without it (20_memory.md R60; how transactions are presented is the
model's choice, log 1). The same of the word that `withFetchWord` places. With nothing presented nothing advances: "Nothing in
it advances by itself" (10_state.md R20); that the step then answers the same state is the model's choice (log 2). -/
def Obligations.StepRunsTheDecodedTransaction : Prop :=
  (∀ (s : State) (t : Txn) (rest : List Txn) (i : Instr), tableOk s.cfg.switchTable = true → s.pending = t :: rest →
    decode t = .ok i → step s = exec i { s with pending := rest }) ∧
  (∀ (s : State) (nbits w : Nat) (i : Instr), tableOk s.cfg.switchTable = true → decodeTableWord nbits w = some i →
    step (s.withFetchWord nbits w) = exec i s) ∧
  (∀ s : State, tableOk s.cfg.switchTable = true → s.pending = [] → s.fault = none → step s = .next s)

/-- 30_encoding.md R85 (the spec's decision D13): a table with a trap below 0xC000, or a descriptor with a bit of 7 .. 5
set, is refused, and no transaction runs under it. Any other table is not. That the table is a list of rows, that every row
counts, a later row of the same address too, and that the refusal comes at every step and not once at configuration is the
model's choice (log 5). -/
def Obligations.MalformedTableRefusesEveryStep : Prop :=
  ∀ s : State,
    (step s = .refused .malformedSwitchTable ↔
      ∃ r ∈ s.cfg.switchTable,
        (r.addr.toNat < 0xC000 ∧ (r.rd.toNat % 4 ≠ 0 ∨ r.wr.toNat % 4 ≠ 0)) ∨ 32 ≤ r.rd.toNat ∨ 32 ≤ r.wr.toNat)

/-! ## Completion -/

/-- 60_exceptions.md R154 (the spec's decision D25): in a state without a fault every well-formed transaction answers a next
state and is not refused. That state is the transaction's completion (R154's item 4; for SEG_COPY out of bounds the Err of
item 3), with a response (30_encoding.md R77), except where the transaction's own bounds check fails: SEG_GET and SEG_SET out
of bounds (item 3), and a bus access whose cell is out of bounds, which 00_scope.md R7 excludes. There it is no completion but
the entry of the fatal fault, whose form as a next state is log 9. -/
def Obligations.WellFormedTransactionsAnswer : Prop :=
  ∀ (i : Instr) (s : State), s.fault = none → i.wf s.drives.length = true →
    ∃ t, exec i s = .next t ∧ t.refused = s.refused ∧ (t.fault = none → t.resp ≠ none)

/-! ## The CPU bus -/

/-- 41_bus.md R108: below 0xC000, where the display-page override of R107 does not apply, MemReadAux (bit 0) selects the
segment of a read and MemWriteAux (bit 1) that of a write, independently. The transactions complete; nothing else changes. -/
def Obligations.RamAccessesFollowTheAuxEnables : Prop :=
  ∀ (s : State) (a : Addr) (v : Byte), s.fault = none → a.toNat < 0xC000 → a.toNat < s.main.len → a.toNat < s.aux.len →
    ¬ (s.cfg.override80Store = true ∧ s.memMode.getLsbD 2 = true ∧
        ((0x0400 ≤ a.toNat ∧ a.toNat ≤ 0x07FF) ∨
          (s.memMode.getLsbD 4 = true ∧ 0x2000 ≤ a.toNat ∧ a.toNat ≤ 0x3FFF))) →
    exec (.busRd a) s
        = .next { s with
            resp := some (.byte ((if s.memMode.getLsbD 0 then s.aux else s.main).read a.toNat)), extOut := none } ∧
    exec (.busWr a v) s
        = .next (if s.memMode.getLsbD 1
            then { s with aux := s.aux.write a.toNat v, resp := some .done, extOut := none }
            else { s with main := s.main.write a.toNat v, resp := some .done, extOut := none })

/-- 41_bus.md R107 (the spec's decision D7): with 80Store set and the override built, MemPage2 (bit 3) selects the segment
of the text page, and with MemHires (bit 4) of the hi-res page, for reads and writes alike. -/
def Obligations.DisplayPagesFollowPageTwo : Prop :=
  ∀ (s : State) (a : Addr) (v : Byte), s.fault = none → a.toNat < s.main.len → a.toNat < s.aux.len →
    s.cfg.override80Store = true → s.memMode.getLsbD 2 = true →
    ((0x0400 ≤ a.toNat ∧ a.toNat ≤ 0x07FF) ∨
      (s.memMode.getLsbD 4 = true ∧ 0x2000 ≤ a.toNat ∧ a.toNat ≤ 0x3FFF)) →
    exec (.busRd a) s
        = .next { s with
            resp := some (.byte ((if s.memMode.getLsbD 3 then s.aux else s.main).read a.toNat)), extOut := none } ∧
    exec (.busWr a v) s
        = .next (if s.memMode.getLsbD 3
            then { s with aux := s.aux.write a.toNat v, resp := some .done, extOut := none }
            else { s with main := s.main.write a.toNat v, resp := some .done, extOut := none })

/-- 41_bus.md R114, R115, R116, R117: what a Probe, a Set and an Unset trap do, as the trap of a read and as the trap of a
write. The status byte is that of the flag after the change; only MemMode can change, and in it only the trap's flag. That a
write trap answers done, discards the status and does the same for every data byte is R106 and R119, the spec's decision D35
(log 10). Which accesses run a trap is a statement of its own. -/
def Obligations.TrapsRunInsteadOfTheAccess : Prop :=
  ∀ (s : State) (a : Addr) (v : Byte) (f : ModeFlag), s.fault = none →
    (resolveRead s.cfg a s.memMode = .trap (.probe f) →
      exec (.busRd a) s = .next { s with
        resp := some (.byte (if s.memMode.getLsbD (flagBit f) then 0x80 else 0x00)), extOut := none }) ∧
    (resolveRead s.cfg a s.memMode = .trap (.set f) →
      exec (.busRd a) s = .next { s with
        memMode := s.memMode ||| 1#8 <<< flagBit f, resp := some (.byte 0x80), extOut := none }) ∧
    (resolveRead s.cfg a s.memMode = .trap (.unset f) →
      exec (.busRd a) s = .next { s with
        memMode := s.memMode &&& ~~~(1#8 <<< flagBit f), resp := some (.byte 0x00), extOut := none }) ∧
    (resolveWrite s.cfg a s.memMode = .trap (.probe f) →
      exec (.busWr a v) s = .next { s with resp := some .done, extOut := none }) ∧
    (resolveWrite s.cfg a s.memMode = .trap (.set f) →
      exec (.busWr a v) s = .next { s with
        memMode := s.memMode ||| 1#8 <<< flagBit f, resp := some .done, extOut := none }) ∧
    (resolveWrite s.cfg a s.memMode = .trap (.unset f) →
      exec (.busWr a v) s = .next { s with
        memMode := s.memMode &&& ~~~(1#8 <<< flagBit f), resp := some .done, extOut := none })

/-- 41_bus.md R109 (the spec's decision D6): an access runs a trap exactly where the switch table gives its address a trap for
its operation, at 0xC000 and above; the table comes before the I/O page and the ROM windows. -/
def Obligations.TrapsComeBeforeTheWindows : Prop :=
  ∀ (c : Config) (a : Addr) (m : Byte) (k : Trap),
    (resolveRead c a m = .trap k ↔ 0xC000 ≤ a.toNat ∧ readTrap c.switchTable a = some k) ∧
    (resolveWrite c a m = .trap k ↔ 0xC000 ≤ a.toNat ∧ writeTrap c.switchTable a = some k)

/-- 10_state.md R23: a transaction other than RESET changes at most one bit of MemMode, and an access that runs a Set or an
Unset trap leaves that trap's bit 1 or 0 and keeps all others. -/
def Obligations.ModeFlagsAreIndependent : Prop :=
  ∀ (i : Instr) (s t : State), i ≠ .reset → exec i s = .next t →
    (∃ f : ModeFlag, ∀ n < 8, n ≠ flagBit f → t.memMode.getLsbD n = s.memMode.getLsbD n) ∧
    (∀ (a : Addr) (f : ModeFlag),
      ((i = .busRd a ∧ resolveRead s.cfg a s.memMode = .trap (.set f)) ∨
        ∃ v, i = .busWr a v ∧ resolveWrite s.cfg a s.memMode = .trap (.set f)) →
      t.memMode.getLsbD (flagBit f) = true ∧ ∀ n < 8, n ≠ flagBit f → t.memMode.getLsbD n = s.memMode.getLsbD n) ∧
    (∀ (a : Addr) (f : ModeFlag),
      ((i = .busRd a ∧ resolveRead s.cfg a s.memMode = .trap (.unset f)) ∨
        ∃ v, i = .busWr a v ∧ resolveWrite s.cfg a s.memMode = .trap (.unset f)) →
      t.memMode.getLsbD (flagBit f) = false ∧ ∀ n < 8, n ≠ flagBit f → t.memMode.getLsbD n = s.memMode.getLsbD n)

/-- 10_state.md R22 as 90_conflicts.md C3 reads it: MemMode changes only through a Set or Unset trap, whichever access runs
it, and through RESET. -/
def Obligations.MemModeChangesOnlyByTrapsAndReset : Prop :=
  ∀ (i : Instr) (s t : State), exec i s = .next t → t.memMode ≠ s.memMode →
    i = .reset ∨
    ∃ (a : Addr) (f : ModeFlag) (k : Trap), 0xC000 ≤ a.toNat ∧
      ((i = .busRd a ∧ readTrap s.cfg.switchTable a = some k) ∨
        ∃ v, i = .busWr a v ∧ writeTrap s.cfg.switchTable a = some k) ∧
      ((k = .set f ∧ t.memMode = s.memMode ||| 1#8 <<< flagBit f) ∨
        (k = .unset f ∧ t.memMode = s.memMode &&& ~~~(1#8 <<< flagBit f)))

/-- 41_bus.md R110 (the spec's decision D9): at 0xC000 .. 0xC0FF with no trap for the operation a read returns a free byte,
whatever it is, and a write changes no state of the block and is presented to the external port. R112 (D5, D11): an untrapped
write above that page changes nothing. All complete. The count of draws and `extOut` are the model's own (log 3, log 6). -/
def Obligations.UntrappedIoAndDiscardedWrites : Prop :=
  ∀ (s : State) (a : Addr) (v : Byte), s.fault = none → 0xC000 ≤ a.toNat →
    (a.toNat ≤ 0xC0FF → readTrap s.cfg.switchTable a = none →
      exec (.busRd a) s = .next { s with
        draws := s.draws + 1, resp := some (.byte (Config.extIoRead s.draws a)), extOut := none }) ∧
    (writeTrap s.cfg.switchTable a = none →
      exec (.busWr a v) s
        = .next { s with resp := some .done, extOut := if a.toNat ≤ 0xC0FF then some (a, v) else none })

/-- 41_bus.md R111 (the spec's decisions D8, D10) and R112 (D5): which untrapped reads of 0xC100 .. 0xFFFF return a Rom cell,
and which a free byte of a peripheral card. -/
def Obligations.RomWindowReads : Prop :=
  ∀ (s : State) (a : Addr), s.fault = none → s.rom.len = 0x4000 → 0xC100 ≤ a.toNat →
    readTrap s.cfg.switchTable a = none →
    exec (.busRd a) s = .next
      (if a.toNat ≤ 0xCFFF ∧ s.memMode.getLsbD 6 = true ∧
          (0xC300 ≤ a.toNat ∧ a.toNat ≤ 0xC3FF → s.memMode.getLsbD 7 = true) ∧
          (0xC800 ≤ a.toNat → s.memMode.getLsbD 5 = true)
        then { s with draws := s.draws + 1, resp := some (.byte (Config.periphRead s.draws a)), extOut := none }
        else { s with resp := some (.byte (s.rom.read (a.toNat - 0xC000))), extOut := none })

/-- 20_memory.md R46 (derived there): under the constraints of R7 every bus access completes without a fault. -/
def Obligations.BusAccessesNeverFault : Prop :=
  ∀ (s : State) (a : Addr) (v : Byte), s.Inv → s.fault = none →
    (∃ t, exec (.busRd a) s = .next t ∧ t.fault = none) ∧ (∃ t, exec (.busWr a v) s = .next t ∧ t.fault = none)

/-- 10_state.md R24: MemPage2 and MemHires "only have effect when `80Store` is also set": with Mem80Store 0 they do not
change how any address resolves. They can be 1 then: a Set trap sets either one and leaves Mem80Store 0. -/
def Obligations.PageTwoAndHiresAreGated : Prop :=
  (∀ (c : Config) (a : Addr) (m n : Byte), m.getLsbD 2 = false → n.getLsbD 2 = false →
    (∀ k < 8, k ≠ 3 → k ≠ 4 → m.getLsbD k = n.getLsbD k) →
    resolveRead c a m = resolveRead c a n ∧ resolveWrite c a m = resolveWrite c a n) ∧
  (∀ (s : State) (a : Addr) (v : Byte) (f : ModeFlag), s.fault = none → s.memMode.getLsbD 2 = false →
    f = .page2 ∨ f = .hires → resolveWrite s.cfg a s.memMode = .trap (.set f) →
    ∃ t, exec (.busWr a v) s = .next t ∧ t.memMode.getLsbD (flagBit f) = true ∧ t.memMode.getLsbD 2 = false)

/-- 41_bus.md R121 (derived there): with Mem80Store 0, an access that no trap takes leaves the same state and gives the same
response for all four values of the pair (MemPage2, MemHires). -/
def Obligations.EightyStoreClearHidesThePair : Prop :=
  ∀ (s t : State) (a : Addr) (v n : Byte), s.memMode.getLsbD 2 = false → n.getLsbD 2 = false →
    (∀ k < 8, k ≠ 3 → k ≠ 4 → s.memMode.getLsbD k = n.getLsbD k) →
    ((a.toNat < 0xC000 ∨ readTrap s.cfg.switchTable a = none) → exec (.busRd a) s = .next t →
      exec (.busRd a) { s with memMode := n } = .next { t with memMode := n }) ∧
    ((a.toNat < 0xC000 ∨ writeTrap s.cfg.switchTable a = none) → exec (.busWr a v) s = .next t →
      exec (.busWr a v) { s with memMode := n } = .next { t with memMode := n })

/-- 41_bus.md R120 (derived there): with MemReadAux and MemWriteAux different and no override at the address, a write then a
read at one RAM address returns what the read returned before the write. -/
def Obligations.DifferentEnablesHideTheWrite : Prop :=
  ∀ (s t u : State) (a : Addr) (v b : Byte), a.toNat < 0xC000 → s.memMode.getLsbD 0 ≠ s.memMode.getLsbD 1 →
    overrides s.cfg a s.memMode = false →
    exec (.busRd a) s = .next u → u.resp = some (.byte b) → exec (.busWr a v) s = .next t → t.fault = none →
    ∃ w, exec (.busRd a) t = .next w ∧ w.resp = some (.byte b)

/-- 20_memory.md R56 (derived there): repeating a bus access leaves the state, response included, as one access did, except
where it draws a free value. -/
def Obligations.BusAccessesAreIdempotent : Prop :=
  ∀ (s t : State) (a : Addr) (v : Byte), t.fault = none →
    (exec (.busRd a) s = .next t → t.draws = s.draws → exec (.busRd a) t = .next t) ∧
    (exec (.busWr a v) s = .next t → exec (.busWr a v) t = .next t)

/-- 20_memory.md R59 (derived there): the two ports reach the same cells. A SEG_SET is seen by the bus read that resolves to
the cell, and a bus write that resolves to a cell is seen by SEG_GET. -/
def Obligations.PortsShareTheCells : Prop :=
  ∀ (s t : State) (a : Addr) (v : Byte) (b : Bank), t.fault = none →
    (exec (.segSet b.ref a.toNat v) s = .next t → resolveRead s.cfg a s.memMode = .ram b a.toNat →
      ∃ u, exec (.busRd a) t = .next u ∧ u.resp = some (.byte v)) ∧
    (exec (.busWr a v) s = .next t → resolveWrite s.cfg a s.memMode = .ram b a.toNat →
      ∃ u, exec (.segGet b.ref a.toNat) t = .next u ∧ u.resp = some (.byte v))

/-- 41_bus.md R118 (the spec's decision D33): MM_GET returns MemMode whole and changes nothing. -/
def Obligations.MmGetReturnsMemMode : Prop :=
  ∀ s : State, s.fault = none →
    exec .mmGet s = .next { s with resp := some (.byte s.memMode), extOut := none }

/-- 30_encoding.md R86 (general knowledge, the spec's decision D12): the traps of the default table, and no others. -/
def Obligations.DefaultTableTraps : Prop :=
  (∀ e ∈ ([ (0xC000, none, some (.unset .store80)), (0xC001, none, some (.set .store80)),
            (0xC002, none, some (.unset .readAux)), (0xC003, none, some (.set .readAux)),
            (0xC004, none, some (.unset .writeAux)), (0xC005, none, some (.set .writeAux)),
            (0xC006, none, some (.set .slotCxROM)), (0xC007, none, some (.unset .slotCxROM)),
            (0xC00A, none, some (.unset .slotC3ROM)), (0xC00B, none, some (.set .slotC3ROM)),
            (0xC013, some (.probe .readAux), none), (0xC014, some (.probe .writeAux), none),
            (0xC015, some (.probe .slotCxROM), none), (0xC017, some (.probe .slotC3ROM), none),
            (0xC018, some (.probe .store80), none), (0xC01C, some (.probe .page2), none),
            (0xC01D, some (.probe .hires), none),
            (0xC054, some (.unset .page2), some (.unset .page2)), (0xC055, some (.set .page2), some (.set .page2)),
            (0xC056, some (.unset .hires), some (.unset .hires)), (0xC057, some (.set .hires), some (.set .hires)) ] :
          List (Addr × Option Trap × Option Trap)),
    readTrap State.reset.cfg.switchTable e.1 = e.2.1 ∧ writeTrap State.reset.cfg.switchTable e.1 = e.2.2) ∧
  (∀ a : Addr, a ∉ ([0xC000, 0xC001, 0xC002, 0xC003, 0xC004, 0xC005, 0xC006, 0xC007, 0xC00A, 0xC00B, 0xC013, 0xC014,
        0xC015, 0xC017, 0xC018, 0xC01C, 0xC01D, 0xC054, 0xC055, 0xC056, 0xC057] : List Addr) →
    readTrap State.reset.cfg.switchTable a = none ∧ writeTrap State.reset.cfg.switchTable a = none)

/-! ## Segments -/

/-- 40_segment.md R93: SEG_GET in bounds returns the cell and changes nothing; out of bounds, an absent buffer having length
0 (R99, the spec's decision D21), it is a fatal fault with code 0x01 and its record (60_exceptions.md R148, D25). That the
entry is a next state is log 9, and that a faulting transaction has no response is log 3 (the model's choice). -/
def Obligations.SegGetReadsOrFaults : Prop :=
  ∀ (s : State) (r : SegRef) (i : Int), s.fault = none → r.ok s.drives.length = true →
    (∀ g, s.segOf r = some g → 0 ≤ i → i < g.len →
      exec (.segGet r i) s = .next { s with resp := some (.byte (g.read i.toNat)), extOut := none }) ∧
    (i < 0 ∨ (s.segLen r : Int) ≤ i →
      exec (.segGet r i) s = .next { s with
        fault := some { code := 0x01, sel := r.sel, drv := r.drv, addr := i }, resp := none, extOut := none })

/-- 40_segment.md R94: SEG_SET in bounds writes one cell; out of bounds it is a fatal fault with code 0x02 and its record
(60_exceptions.md R148, the spec's decision D25), and no cell is written. That the entry is a next state is log 9, and that a
faulting transaction has no response is log 3 (the model's choice). That MemMode and the heads stay in bounds too is
`SegmentPortTouchesOnlySegments`. -/
def Obligations.SegSetWritesOrFaults : Prop :=
  ∀ (s : State) (r : SegRef) (i : Int) (v : Byte), s.fault = none → r.ok s.drives.length = true →
    (∀ g, s.segOf r = some g → 0 ≤ i → i < g.len →
      ∃ t, exec (.segSet r i v) s = .next t ∧ t.resp = some .done ∧ t.fault = none ∧
        t.segOf r = some (g.write i.toNat v) ∧ (∀ q, q ≠ r → t.segOf q = s.segOf q)) ∧
    (i < 0 ∨ (s.segLen r : Int) ≤ i →
      exec (.segSet r i v) s = .next { s with
        fault := some { code := 0x02, sel := r.sel, drv := r.drv, addr := i }, resp := none, extOut := none })

/-- 40_segment.md R98, R100 (derived there): a SEG_SET in bounds followed by a SEG_GET of the same cell returns the byte; a
SEG_GET or SEG_SET at an address `< 0` or `>= size` always sets the fault. -/
def Obligations.SegmentRoundTrip : Prop :=
  ∀ (s : State) (r : SegRef) (i : Int) (v : Byte), s.fault = none → r.ok s.drives.length = true →
    (0 ≤ i → i < s.segLen r →
      ∃ t u, exec (.segSet r i v) s = .next t ∧ exec (.segGet r i) t = .next u ∧ u.resp = some (.byte v)) ∧
    (i < 0 ∨ (s.segLen r : Int) ≤ i →
      (∃ t, exec (.segGet r i) s = .next t ∧ t.fault ≠ none) ∧ (∃ t, exec (.segSet r i v) s = .next t ∧ t.fault ≠ none))

/-- 40_segment.md R95: SEG_COPY returns Ok(L) with cells `start .. start+L-1` holding the payload and every other cell as it
was, or the recoverable Err with nothing written; it never raises a fatal fault. -/
def Obligations.SegCopyWritesAllOrNothing : Prop :=
  ∀ (s : State) (r : SegRef) (start : Int) (bs : List Byte), s.fault = none → r.ok s.drives.length = true →
    (Instr.segCopy r start bs).op.code = 0x12 ∧
    (start < 0 ∨ (s.segLen r : Int) < start + bs.length →
      exec (.segCopy r start bs) s = .next { s with resp := some (.copyErr errCopyBounds), extOut := none }) ∧
    (0 ≤ start → start + bs.length ≤ (s.segLen r : Int) →
      ∃ t, exec (.segCopy r start bs) s = .next t ∧ t.resp = some (.copyOk bs.length) ∧ t.fault = none ∧
        t.segLen r = s.segLen r ∧
        (∀ (k : Nat) (hk : k < bs.length), t.peek r (start.toNat + k) = some bs[k]) ∧
        (∀ a : Nat, (a : Int) < start ∨ start + bs.length ≤ a → t.peek r a = s.peek r a) ∧
        (∀ q a, q ≠ r → t.peek q a = s.peek q a))

/-- 40_segment.md R99 (the spec's decision D21): an absent Data or Image answers as a segment of length 0; 60_exceptions.md
R151 (D26) gives the code 0x10. -/
def Obligations.AbsentBuffersHaveLengthZero : Prop :=
  ∀ (s : State) (b : BufSel) (d : DriveIx) (D : Drive) (i : Int) (v : Byte) (bs : List Byte), s.fault = none →
    s.drives[d.toNat]? = some D → D.buf b = none →
    (∃ t, exec (.segGet (.buf b d) i) s = .next t ∧ t.fault ≠ none) ∧
    (∃ t, exec (.segSet (.buf b d) i v) s = .next t ∧ t.fault ≠ none) ∧
    exec (.segSize (.buf b d)) s = .next { s with resp := some (.int 0), extOut := none } ∧
    exec (.segCopy (.buf b d) i bs) s
      = .next { s with resp := some (if i = 0 ∧ bs = [] then .copyOk 0 else .copyErr 0x10), extOut := none }

/-- 40_segment.md R96: SEG_SIZE returns the length of its segment, 0 for an absent Data or Image, and changes nothing; in a
state with the invariants of 10_state.md R41, Main and Aux give RAM_SIZE and Rom gives 0x4000. -/
def Obligations.SegSizeReturnsTheLength : Prop :=
  ∀ (s : State) (r : SegRef), s.fault = none → r.ok s.drives.length = true →
    (Instr.segSize r).op.code = 0x13 ∧
    exec (.segSize r) s = .next { s with
      resp := some (.int (match s.segOf r with | some g => g.len | none => 0)), extOut := none } ∧
    (s.Inv →
      exec (.segSize .main) s = .next { s with resp := some (.int s.cfg.ramSize), extOut := none } ∧
      exec (.segSize .aux) s = .next { s with resp := some (.int s.cfg.ramSize), extOut := none } ∧
      exec (.segSize .rom) s = .next { s with resp := some (.int 0x4000), extOut := none })

/-- 40_segment.md R97 (the spec's decision D21): SEG_ATTACH completes, the buffer is a segment of `n` cells each holding a
free byte of this creation (whatever it is; log 6, log 7), and nothing else changes. -/
def Obligations.SegAttachCreatesTheBuffer : Prop :=
  ∀ (s : State) (b : BufSel) (d : DriveIx) (n : Nat) (D : Drive), s.fault = none → s.drives[d.toNat]? = some D →
    ∃ t, exec (.segAttach b d n) s = .next t ∧
      t = { s with
        drives := s.drives.set d.toNat (match b with
          | .data => { D with data := some { len := n, seed := s.draws, cells := [] } }
          | .image => { D with image := some { len := n, seed := s.draws, cells := [] } }),
        draws := s.draws + 1, resp := some .done, extOut := none } ∧
      (∀ a < n, t.peek (.buf b d) a = some (Config.unspec s.draws a)) ∧
      (∀ a ≥ n, t.peek (.buf b d) a = none)

/-! ## Drives -/

/-- 42_drive.md R125: DRV_STEP clamps TrackPos to 0 .. 70 and always sets SectorPos to 0; it completes in every state of the
drive, whatever Locked, Online, Mode and WriteProtect are, and writes nothing else. -/
def Obligations.DrvStepClampsAndZeroes : Prop :=
  ∀ (s : State) (d : DriveIx) (off : Int) (D : Drive), s.fault = none → s.drives[d.toNat]? = some D →
    (Instr.drvStep d off).op.code = 0x22 ∧
    exec (.drvStep d off) s = .next { s with
      drives := s.drives.set d.toNat { D with trackPos := max 0 (min 70 (D.trackPos + off)), sectorPos := 0 },
      resp := some .done, extOut := none }

/-- 42_drive.md R126, 70_reset_and_hazards.md R173: DRV_SHIFT is a no-op while Locked; otherwise SectorPos moves by the
offset, to 0 where the sum is not in 0 .. 6703 ("a full reset", not a modulo). It completes, and writes nothing else. -/
def Obligations.DrvShiftMovesOrResets : Prop :=
  ∀ (s : State) (d : DriveIx) (off : Int) (D : Drive), s.fault = none → s.drives[d.toNat]? = some D →
    (Instr.drvShift d off).op.code = 0x21 ∧
    (D.locked = true → exec (.drvShift d off) s = .next { s with resp := some .done, extOut := none }) ∧
    (D.locked = false → exec (.drvShift d off) s = .next { s with
      drives := s.drives.set d.toNat
        { D with sectorPos := if D.sectorPos + off ≥ 6704 ∨ D.sectorPos + off < 0 then 0 else D.sectorPos + off },
      resp := some .done, extOut := none })

/-- 42_drive.md R128 with the decode of 30_encoding.md R87, 70_reset_and_hazards.md R172: for a nibble that decodes to phase
`p`, SectorPos becomes 0 even where the head does not move, Phase becomes `p`, and, Phase having been in 0 .. 4 as in every
reachable state (10_state.md R41), the head steps by PHASE_TABLE[Phase * 5 + p], an index in 1 .. 24; for any other nibble
nothing changes. The table's values are a statement of their own. -/
def Obligations.DrvStepPhaseActivates : Prop :=
  ∀ (s : State) (d : DriveIx) (a : Addr) (D : Drive), s.fault = none → s.drives[d.toNat]? = some D →
    (Instr.drvStepPhase d a).op.code = 0x20 ∧
    (∀ p : Nat, 1 ≤ p → p ≤ 4 → a.toNat % 16 = 2 * p - 1 →
      (∃ t E, exec (.drvStepPhase d a) s = .next t ∧ t.drives[d.toNat]? = some E ∧ E.phase = p ∧ E.sectorPos = 0) ∧
      (0 ≤ D.phase → D.phase ≤ 4 →
        1 ≤ (D.phase * 5 + p).toNat ∧ (D.phase * 5 + p).toNat ≤ 24 ∧ phaseTable.length = 25 ∧
        exec (.drvStepPhase d a) s = .next { s with
          drives := s.drives.set d.toNat { D with
            phase := p,
            trackPos := max 0 (min 70 (D.trackPos + phaseTable.getD (D.phase * 5 + p).toNat 0)),
            sectorPos := 0 },
          resp := some .done, extOut := none })) ∧
    (a.toNat % 16 ∉ [1, 3, 5, 7] → exec (.drvStepPhase d a) s = .next { s with resp := some .done, extOut := none })

/-- 30_encoding.md R88 (the spec's decisions D18, D19): the ascending neighbour moves the head +1, the descending one -1, the
same phase and the phase two apart 0, and the first activation 0. -/
def Obligations.PhaseTableValues : Prop :=
  ∀ p q : Nat, p ≤ 4 → 1 ≤ q → q ≤ 4 →
    phaseStep p q = (if p = 0 then 0 else if q = p % 4 + 1 then 1 else if p = q % 4 + 1 then -1 else 0)

/-- 60_exceptions.md R152: an address whose low nibble is no phase, and a shift while Locked, complete with response done and
no state change. -/
def Obligations.DefinedNoOps : Prop :=
  ∀ (s : State) (d : DriveIx) (D : Drive), s.fault = none → s.drives[d.toNat]? = some D →
    (∀ a : Addr, a.toNat % 16 ≠ 1 → a.toNat % 16 ≠ 3 → a.toNat % 16 ≠ 5 → a.toNat % 16 ≠ 7 →
      exec (.drvStepPhase d a) s = .next { s with resp := some .done, extOut := none }) ∧
    (D.locked = true → ∀ off : Int,
      exec (.drvShift d off) s = .next { s with resp := some .done, extOut := none })

/-- 42_drive.md R129 (derived there): `k` activations in ascending order after phase `p` move the head `k` half-tracks,
saturating at 70, and leave the last phase activated. -/
def Obligations.AscendingPhasesSeek : Prop :=
  ∀ (k p : Nat) (s : State) (d : DriveIx) (D : Drive), s.fault = none → s.drives[d.toNat]? = some D → 1 ≤ p → p ≤ 4 →
    D.phase = p → 0 ≤ D.trackPos → D.trackPos ≤ 70 →
    ∃ t E, execAll (ascendingPhases d k p) s = .next t ∧ t.drives[d.toNat]? = some E ∧
      E.trackPos = min 70 (D.trackPos + k) ∧ E.phase = ((p - 1 + k) % 4 + 1 : Nat) ∧ (0 < k → E.sectorPos = 0)

/-- 42_drive.md R130 (that the result is not checked is the spec's decision D41): the linear offset into Data, 0 without
Data; nothing changes. -/
def Obligations.DrvPositionIsTheLinearOffset : Prop :=
  ∀ (s : State) (d : DriveIx) (D : Drive), s.fault = none → s.drives[d.toNat]? = some D →
    exec (.drvPosition d) s = .next { s with
      resp := some (.int (if D.data = none then 0 else D.trackPos.tdiv 2 * 6704 + D.sectorPos)), extOut := none }

/-- 70_reset_and_hazards.md R174, 42_drive.md R131, R142 (R174 and R142 derived there): with a full-size Data, SEG_GET at the
position DRV_POSITION returns completes at every half-track up to 69 and is a fatal fault at 70; the half-tracks 2t and
2t + 1 give one position. -/
def Obligations.ReadingAtThePosition : Prop :=
  ∀ (s t : State) (d : DriveIx) (D : Drive) (g : Segment) (n : Int), s.drives[d.toNat]? = some D → D.data = some g →
    g.len = 234640 → 0 ≤ D.trackPos → D.trackPos ≤ 70 → 0 ≤ D.sectorPos → D.sectorPos < 6704 →
    exec (.drvPosition d) s = .next t → t.resp = some (.int n) →
    (D.trackPos ≤ 69 → ∃ u, exec (.segGet (.buf .data d) n) t = .next u ∧ u.fault = none ∧
      u.resp = some (.byte (g.read n.toNat))) ∧
    (D.trackPos = 70 → ∃ u, exec (.segGet (.buf .data d) n) t = .next u ∧ u.fault ≠ none) ∧
    (∀ k : Int, 0 ≤ k → (D.trackPos = 2 * k ∨ D.trackPos = 2 * k + 1) → n = k * 6704 + D.sectorPos)

/-- 42_drive.md R132 (the spec's decision D22), R134 (D22), R135 (D33): the reports of a drive; they change nothing. -/
def Obligations.DriveReports : Prop :=
  ∀ (s : State) (d : DriveIx) (D : Drive), s.fault = none → s.drives[d.toNat]? = some D →
    exec (.drvGetHead d) s = .next { s with
      resp := some (.head D.phase D.trackPos D.sectorPos), extOut := none } ∧
    (∃ v : Byte, exec (.drvGetFlags d) s = .next { s with resp := some (.byte v), extOut := none } ∧
      v.getLsbD 0 = D.online ∧ v.getLsbD 1 = decide (D.mode = .write) ∧ v.getLsbD 2 = D.writeProtect ∧
      v.getLsbD 3 = D.locked ∧ v.toNat < 16) ∧
    exec (.drvGetImagetype d) s = .next { s with
      resp := some (.byte (match D.imageType with | .dos33 => 0 | .prodos => 1 | .nibble => 2)), extOut := none }

/-- 42_drive.md R133, R136 (the spec's decision D22): DRV_SET_FLAGS writes the four flags at once and nothing else, and
DRV_GET_FLAGS then returns the byte's low nibble; DRV_SET_IMAGETYPE writes ImageType and nothing else. -/
def Obligations.DriveSettings : Prop :=
  ∀ (s : State) (d : DriveIx) (v : Byte) (y : ImageType) (D : Drive), s.fault = none → s.drives[d.toNat]? = some D →
    (∃ t u, exec (.drvSetFlags d v) s = .next t ∧
      t = { s with
        drives := s.drives.set d.toNat { D with
          online := v.getLsbD 0, mode := if v.getLsbD 1 then .write else .read,
          writeProtect := v.getLsbD 2, locked := v.getLsbD 3 },
        resp := some .done, extOut := none } ∧
      exec (.drvGetFlags d) t = .next u ∧ u.resp = some (.byte (v &&& 0x0F))) ∧
    exec (.drvSetImagetype d y) s = .next { s with
      drives := s.drives.set d.toNat { D with imageType := y }, resp := some .done, extOut := none }

/-- 70_reset_and_hazards.md R175: Locked stops DRV_SHIFT only: DRV_STEP and DRV_STEP_PHASE still move the head of a locked
drive (a phase activation by its table's entry, Phase being in 0 .. 4 as in every reachable state) and zero SectorPos, and
every transaction but DRV_SHIFT and those that report or set the flag runs as it does on unlocked drives. -/
def Obligations.LockedStopsShiftOnly : Prop :=
  (∀ (s : State) (d : DriveIx) (D : Drive) (off : Int), s.fault = none → s.drives[d.toNat]? = some D → D.locked = true →
    exec (.drvShift d off) s = .next { s with resp := some .done, extOut := none } ∧
    (∃ t E, exec (.drvStep d off) s = .next t ∧ t.drives[d.toNat]? = some E ∧
      E.trackPos = max 0 (min 70 (D.trackPos + off)) ∧ E.sectorPos = 0) ∧
    (∀ a : Addr, a.toNat % 16 ∈ [1, 3, 5, 7] →
      ∃ t E, exec (.drvStepPhase d a) s = .next t ∧ t.drives[d.toNat]? = some E ∧ E.sectorPos = 0 ∧
        (0 ≤ D.phase → D.phase ≤ 4 →
          E.trackPos = max 0 (min 70 (D.trackPos + phaseTable.getD (D.phase * 5 + E.phase).toNat 0))))) ∧
  (∀ (i : Instr) (s t : State), i.op ∉ [Op.drvShift, .drvGetFlags, .drvSetFlags] → exec i s = .next t →
    exec i s.unlocked = .next t.unlocked)

/-- 42_drive.md R137: the two axes are independent: DRV_SHIFT never changes TrackPos, and DRV_STEP and DRV_STEP_PHASE change
SectorPos only by setting it to 0; in a state with the invariants the head is at one of 71 half-track positions and SectorPos
within the track after each of them. -/
def Obligations.TwoIndependentAxes : Prop :=
  ∀ (s t : State) (d : DriveIx) (off : Int) (a : Addr) (D E : Drive), s.drives[d.toNat]? = some D →
    t.drives[d.toNat]? = some E →
    (exec (.drvShift d off) s = .next t → E.trackPos = D.trackPos) ∧
    (exec (.drvStep d off) s = .next t → E.sectorPos = 0) ∧
    (exec (.drvStepPhase d a) s = .next t → E.sectorPos = D.sectorPos ∨ E.sectorPos = 0) ∧
    (s.Inv → (exec (.drvShift d off) s = .next t ∨ exec (.drvStep d off) s = .next t ∨ exec (.drvStepPhase d a) s = .next t) →
      0 ≤ E.trackPos ∧ E.trackPos ≤ 70 ∧ 0 ≤ E.sectorPos ∧ E.sectorPos < 6704)

/-- 42_drive.md R139 (the spec's decision D23): Online, Mode, WriteProtect, ImageType and Image decide no outcome: a
transaction that neither reports nor sets them runs the same with all of them put to their reset values. -/
def Obligations.UnreadDriveFieldsDecideNothing : Prop :=
  ∀ (i : Instr) (s t : State), touchesUnread i = false → exec i s = .next t →
    exec i s.eraseUnread = .next t.eraseUnread

/-! ## RESET, faults and whole-machine rules -/

/-- 70_reset_and_hazards.md R165, 10_state.md R42 (every value the spec's decision D24): RESET completes and puts every
field at its reset value; the cells of the three segments are free bytes of three new creations (log 6, log 7). The
configuration, what is presented and the mark of a refused run stay (log 1, log 5; 60_exceptions.md R153, log 12). -/
def Obligations.ResetCreatesTheMachine : Prop :=
  ∀ s : State, s.fault = none →
    exec .reset s = .next {
      cfg := s.cfg, memMode := s.cfg.memModeReset,
      main := { len := s.cfg.ramSize, seed := s.draws, cells := [] },
      aux := { len := s.cfg.ramSize, seed := s.draws + 1, cells := [] },
      rom := { len := 0x4000, seed := s.draws + 2, cells := [] },
      drives := List.replicate s.cfg.nDrives {
        phase := 0, trackPos := 0, sectorPos := 0, data := none, image := none, imageType := .dos33, mode := .read,
        online := false, writeProtect := false, locked := false },
      fault := none, refused := s.refused, draws := s.draws + 3, pending := s.pending, resp := some .done, extOut := none }

/-- 10_state.md R42, 00_scope.md R7 (the spec's decisions D7, D15, D17, D24): the state after RESET with the default
parameters, which stand in `cfg` (log 5), the cells of Main, Aux and Rom being free bytes (log 6, log 7); no transaction is
presented (log 1) and none has been refused. The default table is `DefaultTableTraps`. -/
def Obligations.ResetStateValues : Prop :=
  State.reset.memMode = 0x00 ∧ State.reset.main.len = 0x10000 ∧ State.reset.aux.len = 0x10000 ∧
  State.reset.rom.len = 0x4000 ∧ State.reset.drives.length = 2 ∧ State.reset.fault = none ∧
  (∀ D ∈ State.reset.drives, D.phase = 0 ∧ D.trackPos = 0 ∧ D.sectorPos = 0 ∧ D.data = none ∧ D.image = none ∧
    D.imageType = .dos33 ∧ D.mode = .read ∧ D.online = false ∧ D.writeProtect = false ∧ D.locked = false) ∧
  (∀ a < 0x10000, State.reset.peek .main a = some (Config.unspec State.reset.main.seed a)) ∧
  (∀ a < 0x10000, State.reset.peek .aux a = some (Config.unspec State.reset.aux.seed a)) ∧
  (∀ a < 0x4000, State.reset.peek .rom a = some (Config.unspec State.reset.rom.seed a)) ∧
  State.reset.cfg.ramSize = 0x10000 ∧ State.reset.cfg.nDrives = 2 ∧ State.reset.cfg.override80Store = true ∧
  State.reset.cfg.memModeReset = 0x00 ∧ State.reset.pending = [] ∧ State.reset.refused = false

/-- 60_exceptions.md R147: in a state with the constraints of R7, a fatal fault is raised by exactly two causes: SEG_GET and
SEG_SET at an address outside `0 .. len-1` of their segment (whose drive exists, for a missing drive is refused first, R154). -/
def Obligations.FatalFaultsHaveTwoCauses : Prop :=
  ∀ (i : Instr) (s t : State), s.Inv → exec i s = .next t →
    (t.fault ≠ none ↔
      ∃ (r : SegRef) (k : Int), (i = .segGet r k ∨ ∃ v, i = .segSet r k v) ∧
        r.ok s.drives.length = true ∧ (k < 0 ∨ (s.segLen r : Int) ≤ k))

/-- 60_exceptions.md R150 (derived there): the state a fatal fault leaves is the state before it plus `S.Fault`; the model
gives no response to it (log 3, log 9). -/
def Obligations.FaultsArePrecise : Prop :=
  ∀ (i : Instr) (s t : State), exec i s = .next t → t.fault ≠ none →
    t = { s with fault := t.fault, resp := none, extOut := none }

/-- 60_exceptions.md R149, R154 (the spec's decision D25): in a faulted state nothing has a step, RESET included; a
well-formed transaction stops with the model's fault `halted`, and one whose drive does not exist is refused, for the check of
the encoding comes first (as an outcome without a next state, log 12). -/
def Obligations.FaultedStateHasNoStep : Prop :=
  (∀ (s : State) (r : FaultRecord), s.fault = some r → ∀ t, step s ≠ .next t) ∧
  (∀ (s : State) (r : FaultRecord) (i : Instr), s.fault = some r → i.wf s.drives.length = true →
    exec i s = .fault (.halted r)) ∧
  (∀ (s : State) (r : FaultRecord) (d : DriveIx) (b : BufSel) (k : Int), s.fault = some r → s.drives.length ≤ d.toNat →
    exec (.segGet (.buf b d) k) s = .refused (.driveOutOfRange d) ∧
    exec (.drvPosition d) s = .refused (.driveOutOfRange d))

/-- 10_state.md R41, the spec's invariants, hold after RESET with the default parameters. -/
def Obligations.InvariantsHoldAtReset : Prop := State.reset.Inv

/-- 10_state.md R41 (derived there): every step keeps the invariants: Phase in 0 .. 4, TrackPos in 0 .. 70, SectorPos in
0 .. 6703, the segment lengths, and with them the number of drives, the constraints on the configuration and the canonical
form of memory (log 8). -/
def Obligations.EveryStepKeepsTheInvariants : Prop :=
  ∀ s t : State, s.Inv → step s = .next t → t.Inv

/-- 00_scope.md R13 (the free values as the model takes them, log 6): no two segments share a free value, at reset and after
every step. -/
def Obligations.FreeValuesStayFresh : Prop :=
  State.reset.FreshDraws ∧ ∀ s t : State, s.FreshDraws → step s = .next t → t.FreshDraws

/-- 10_state.md R40: the configuration is "immutable thereafter": no step changes it (log 5). -/
def Obligations.ConfigurationNeverChanges : Prop :=
  ∀ s t : State, step s = .next t → t.cfg = s.cfg

/-- A segment in canonical form is determined by its length, its creation and the bytes written to it: equal memories are
equal data (log 8). -/
def Obligations.CanonicalSegmentsAreEqualData : Prop :=
  ∀ g h : Segment, g.wf = true → h.wf = true → g.len = h.len → g.seed = h.seed → (∀ i, g.cell? i = h.cell? i) → g = h

/-- The frame of memory, for every transaction (10_state.md R44, derived there; 20_memory.md R54): a cell that the transaction
does not store to, by the address its meaning computes, reads after it as before it. -/
def Obligations.MemoryOutsideTheStoresIsUnchanged : Prop :=
  ∀ (i : Instr) (s t : State) (r : SegRef) (a : Nat), exec i s = .next t → ¬ storesTo i s r a → t.peek r a = s.peek r a

/-- 10_state.md R44 (derived there), the rows that write nothing: MM_GET, SEG_GET, SEG_SIZE and the drive reports leave every
field of the block as it was, but for the record of a fatal SEG_GET. -/
def Obligations.ReadingTransactionsWriteNothing : Prop :=
  ∀ (i : Instr) (s t : State),
    i.op ∈ [Op.mmGet, .segGet, .segSize, .drvPosition, .drvGetHead, .drvGetFlags, .drvGetImagetype] → exec i s = .next t →
    t.memMode = s.memMode ∧ t.main = s.main ∧ t.aux = s.aux ∧ t.rom = s.rom ∧ t.drives = s.drives ∧ t.draws = s.draws ∧
    t.pending = s.pending ∧ (i.op ≠ .segGet → t.fault = s.fault)

/-- 10_state.md R44 (derived there), the rows of the CPU bus: the CPU never changes Rom or a drive; a read changes no
memory. -/
def Obligations.CpuBusTouchesOnlyModeAndRam : Prop :=
  ∀ (s t : State) (a : Addr) (v : Byte),
    (exec (.busRd a) s = .next t → t.main = s.main ∧ t.aux = s.aux ∧ t.rom = s.rom ∧ t.drives = s.drives ∧ t.pending = s.pending) ∧
    (exec (.busWr a v) s = .next t → t.rom = s.rom ∧ t.drives = s.drives ∧ t.draws = s.draws ∧ t.pending = s.pending)

/-- 10_state.md R44 (derived there), the rows of the segment port: it never changes MemMode, and of a drive only Data and
Image. -/
def Obligations.SegmentPortTouchesOnlySegments : Prop :=
  ∀ (i : Instr) (s t : State), i.op ∈ [Op.segGet, .segSet, .segCopy, .segSize, .segAttach] → exec i s = .next t →
    t.memMode = s.memMode ∧ t.pending = s.pending ∧
    t.drives.map (fun D => { D with data := none, image := none })
      = s.drives.map (fun D => { D with data := none, image := none })

/-- 10_state.md R44 (derived there), the rows of the drive port, and 10_state.md R30: a drive transaction leaves MemMode, the
three segments, every other drive, and its own drive's buffers as they were. -/
def Obligations.DrivePortTouchesOnlyItsDrive : Prop :=
  ∀ (i : Instr) (s t : State) (d : DriveIx),
    ((∃ a, i = .drvStepPhase d a) ∨ (∃ k, i = .drvShift d k) ∨ (∃ k, i = .drvStep d k) ∨ (∃ v, i = .drvSetFlags d v) ∨
      (∃ y, i = .drvSetImagetype d y)) →
    exec i s = .next t →
    t.memMode = s.memMode ∧ t.main = s.main ∧ t.aux = s.aux ∧ t.rom = s.rom ∧ t.fault = s.fault ∧ t.draws = s.draws ∧
    t.pending = s.pending ∧ t.drives.length = s.drives.length ∧
    (∀ e : Nat, e ≠ d.toNat → t.drives[e]? = s.drives[e]?) ∧
    (∀ b, t.segOf (.buf b d) = s.segOf (.buf b d))
end

