-- ==== Sys2Proof/Laws/State.lean ====
section
/-! SUPPORT. One lemma per field per update of State, and the small lemmas of the updates. -/

namespace Sys2Proof.Machine

section respond
variable (s : State) (r : Response)
@[simp] theorem State.respond_cfg : (s.respond r).cfg = s.cfg := rfl
@[simp] theorem State.respond_memMode : (s.respond r).memMode = s.memMode := rfl
@[simp] theorem State.respond_main : (s.respond r).main = s.main := rfl
@[simp] theorem State.respond_aux : (s.respond r).aux = s.aux := rfl
@[simp] theorem State.respond_rom : (s.respond r).rom = s.rom := rfl
@[simp] theorem State.respond_drives : (s.respond r).drives = s.drives := rfl
@[simp] theorem State.respond_fault : (s.respond r).fault = s.fault := rfl
@[simp] theorem State.respond_refused : (s.respond r).refused = s.refused := rfl
@[simp] theorem State.respond_draws : (s.respond r).draws = s.draws := rfl
@[simp] theorem State.respond_pending : (s.respond r).pending = s.pending := rfl
@[simp] theorem State.respond_resp : (s.respond r).resp = some r := rfl
@[simp] theorem State.respond_extOut : (s.respond r).extOut = none := rfl
@[simp] theorem State.respond_segOf (q : SegRef) : (s.respond r).segOf q = s.segOf q := by cases q <;> rfl
@[simp] theorem State.respond_respond (r' : Response) : (s.respond r).respond r' = s.respond r' := rfl
end respond

section presentExt
variable (s : State) (a : Addr) (v : Byte)
@[simp] theorem State.presentExt_cfg : (s.presentExt a v).cfg = s.cfg := rfl
@[simp] theorem State.presentExt_memMode : (s.presentExt a v).memMode = s.memMode := rfl
@[simp] theorem State.presentExt_main : (s.presentExt a v).main = s.main := rfl
@[simp] theorem State.presentExt_aux : (s.presentExt a v).aux = s.aux := rfl
@[simp] theorem State.presentExt_rom : (s.presentExt a v).rom = s.rom := rfl
@[simp] theorem State.presentExt_drives : (s.presentExt a v).drives = s.drives := rfl
@[simp] theorem State.presentExt_fault : (s.presentExt a v).fault = s.fault := rfl
@[simp] theorem State.presentExt_refused : (s.presentExt a v).refused = s.refused := rfl
@[simp] theorem State.presentExt_draws : (s.presentExt a v).draws = s.draws := rfl
@[simp] theorem State.presentExt_pending : (s.presentExt a v).pending = s.pending := rfl
@[simp] theorem State.presentExt_resp : (s.presentExt a v).resp = some .done := rfl
@[simp] theorem State.presentExt_extOut : (s.presentExt a v).extOut = some (a, v) := rfl
@[simp] theorem State.presentExt_segOf (q : SegRef) : (s.presentExt a v).segOf q = s.segOf q := by cases q <;> rfl
end presentExt

section drawn
variable (s : State)
@[simp] theorem State.drawn_cfg : s.drawn.cfg = s.cfg := rfl
@[simp] theorem State.drawn_memMode : s.drawn.memMode = s.memMode := rfl
@[simp] theorem State.drawn_main : s.drawn.main = s.main := rfl
@[simp] theorem State.drawn_aux : s.drawn.aux = s.aux := rfl
@[simp] theorem State.drawn_rom : s.drawn.rom = s.rom := rfl
@[simp] theorem State.drawn_drives : s.drawn.drives = s.drives := rfl
@[simp] theorem State.drawn_fault : s.drawn.fault = s.fault := rfl
@[simp] theorem State.drawn_refused : s.drawn.refused = s.refused := rfl
@[simp] theorem State.drawn_draws : s.drawn.draws = s.draws + 1 := rfl
@[simp] theorem State.drawn_pending : s.drawn.pending = s.pending := rfl
@[simp] theorem State.drawn_segOf (q : SegRef) : s.drawn.segOf q = s.segOf q := by cases q <;> rfl
end drawn

section raiseFatal
variable (s : State) (r : FaultRecord)
@[simp] theorem State.raiseFatal_cfg : (s.raiseFatal r).cfg = s.cfg := rfl
@[simp] theorem State.raiseFatal_memMode : (s.raiseFatal r).memMode = s.memMode := rfl
@[simp] theorem State.raiseFatal_main : (s.raiseFatal r).main = s.main := rfl
@[simp] theorem State.raiseFatal_aux : (s.raiseFatal r).aux = s.aux := rfl
@[simp] theorem State.raiseFatal_rom : (s.raiseFatal r).rom = s.rom := rfl
@[simp] theorem State.raiseFatal_drives : (s.raiseFatal r).drives = s.drives := rfl
@[simp] theorem State.raiseFatal_fault : (s.raiseFatal r).fault = some r := rfl
@[simp] theorem State.raiseFatal_refused : (s.raiseFatal r).refused = s.refused := rfl
@[simp] theorem State.raiseFatal_draws : (s.raiseFatal r).draws = s.draws := rfl
@[simp] theorem State.raiseFatal_pending : (s.raiseFatal r).pending = s.pending := rfl
@[simp] theorem State.raiseFatal_resp : (s.raiseFatal r).resp = none := rfl
@[simp] theorem State.raiseFatal_extOut : (s.raiseFatal r).extOut = none := rfl
@[simp] theorem State.raiseFatal_segOf (q : SegRef) : (s.raiseFatal r).segOf q = s.segOf q := by cases q <;> rfl
end raiseFatal

section markRefused
variable (s : State)
@[simp] theorem State.markRefused_cfg : s.markRefused.cfg = s.cfg := rfl
@[simp] theorem State.markRefused_memMode : s.markRefused.memMode = s.memMode := rfl
@[simp] theorem State.markRefused_main : s.markRefused.main = s.main := rfl
@[simp] theorem State.markRefused_aux : s.markRefused.aux = s.aux := rfl
@[simp] theorem State.markRefused_rom : s.markRefused.rom = s.rom := rfl
@[simp] theorem State.markRefused_drives : s.markRefused.drives = s.drives := rfl
@[simp] theorem State.markRefused_fault : s.markRefused.fault = s.fault := rfl
@[simp] theorem State.markRefused_refused : s.markRefused.refused = true := rfl
@[simp] theorem State.markRefused_draws : s.markRefused.draws = s.draws := rfl
@[simp] theorem State.markRefused_pending : s.markRefused.pending = s.pending := rfl
@[simp] theorem State.markRefused_resp : s.markRefused.resp = none := rfl
@[simp] theorem State.markRefused_extOut : s.markRefused.extOut = none := rfl
@[simp] theorem State.markRefused_segOf (q : SegRef) : s.markRefused.segOf q = s.segOf q := by cases q <;> rfl
end markRefused

section setDrive
variable (s : State) (d : DriveIx) (D : Drive)
@[simp] theorem State.setDrive_cfg : (s.setDrive d D).cfg = s.cfg := rfl
@[simp] theorem State.setDrive_memMode : (s.setDrive d D).memMode = s.memMode := rfl
@[simp] theorem State.setDrive_main : (s.setDrive d D).main = s.main := rfl
@[simp] theorem State.setDrive_aux : (s.setDrive d D).aux = s.aux := rfl
@[simp] theorem State.setDrive_rom : (s.setDrive d D).rom = s.rom := rfl
@[simp] theorem State.setDrive_drives : (s.setDrive d D).drives = s.drives.set d.toNat D := rfl
@[simp] theorem State.setDrive_fault : (s.setDrive d D).fault = s.fault := rfl
@[simp] theorem State.setDrive_refused : (s.setDrive d D).refused = s.refused := rfl
@[simp] theorem State.setDrive_draws : (s.setDrive d D).draws = s.draws := rfl
@[simp] theorem State.setDrive_pending : (s.setDrive d D).pending = s.pending := rfl
end setDrive

section setSeg
variable (s : State) (r : SegRef) (g : Segment)
@[simp] theorem State.setSeg_cfg : (s.setSeg r g).cfg = s.cfg := by cases r <;> rfl
@[simp] theorem State.setSeg_memMode : (s.setSeg r g).memMode = s.memMode := by cases r <;> rfl
@[simp] theorem State.setSeg_fault : (s.setSeg r g).fault = s.fault := by cases r <;> rfl
@[simp] theorem State.setSeg_refused : (s.setSeg r g).refused = s.refused := by cases r <;> rfl
@[simp] theorem State.setSeg_draws : (s.setSeg r g).draws = s.draws := by cases r <;> rfl
@[simp] theorem State.setSeg_pending : (s.setSeg r g).pending = s.pending := by cases r <;> rfl
@[simp] theorem State.setSeg_drives_length : (s.setSeg r g).drives.length = s.drives.length := by
  cases r <;> simp [State.setSeg]
end setSeg

@[simp] theorem Drive.buf_setBuf (b : BufSel) (g : Segment) (D : Drive) : (D.setBuf b g).buf b = some g := by
  cases b <;> rfl

theorem Drive.buf_setBuf_ne {b c : BufSel} (h : c ≠ b) (g : Segment) (D : Drive) : (D.setBuf b g).buf c = D.buf c := by
  cases b <;> cases c <;> first | rfl | exact absurd rfl h

/-- The segment that was put, where there is one to put it over. -/
theorem State.segOf_setSeg {s : State} {r : SegRef} {g h : Segment} (hr : s.segOf r = some h) :
    (s.setSeg r g).segOf r = some g := by
  cases r with
  | buf b d =>
    simp only [State.segOf, State.setSeg, List.getElem?_modify_eq] at hr ⊢
    cases hD : s.drives[d.toNat]? with
    | none => simp [hD] at hr
    | some D => simp
  | _ => rfl

/-- Every other segment is untouched. -/
theorem State.segOf_setSeg_ne {s : State} {r q : SegRef} {g : Segment} (hq : q ≠ r) :
    (s.setSeg r g).segOf q = s.segOf q := by
  cases r with
  | buf b d =>
    cases q with
    | buf c e =>
      simp only [State.segOf, State.setSeg]
      by_cases he : e = d
      · subst he
        have hc : c ≠ b := fun hc => hq (by rw [hc])
        cases hD : s.drives[e.toNat]? with
        | none => simp [hD]
        | some D => simp [hD, Drive.buf_setBuf_ne hc]
      · have : d.toNat ≠ e.toNat := fun hc => he (BitVec.eq_of_toNat_eq hc.symm)
        rw [List.getElem?_modify_ne _ _ this]
    | _ => rfl
  | _ => cases q <;> first | rfl | exact absurd rfl hq

end Sys2Proof.Machine
end

