-- ==== Sys2Proof/Laws/Cells.lean ====
section
/-! SUPPORT. The cells of a segment: reading after writing, the canonical form, and its uniqueness. -/

namespace Sys2Proof.Machine

theorem cellAt_putCell (l : List Host.Cell) (a b : Nat) (v : Byte) :
    cellAt (putCell l a v) b = if b = a then some v else cellAt l b := by
  induction l with
  | nil => simp [putCell, cellAt]
  | cons c rest ih =>
    obtain ⟨k, w⟩ := c
    simp only [putCell]
    split
    · simp [cellAt]
    · split
      · next h =>
        subst h
        by_cases hb : b = a <;> simp [cellAt, hb]
      · next h =>
        simp only [cellAt, ih]
        by_cases hb : b = k
        · simp [hb, Ne.symm h]
        · simp [hb]

theorem putCell_putCell (l : List Host.Cell) (a : Nat) (v w : Byte) : putCell (putCell l a v) a w = putCell l a w := by
  induction l with
  | nil => simp [putCell]
  | cons c rest ih =>
    obtain ⟨k, u⟩ := c
    simp only [putCell]
    by_cases h1 : a < k
    · simp [h1, putCell]
    · by_cases h2 : a = k
      · simp [h2, putCell]
      · simp [h1, h2, putCell, ih]

/-- The head of a rising list lies below the rest. -/
theorem rising_cons {k : Nat} {w : Byte} {l : List Host.Cell} :
    rising ((k, w) :: l) = true ↔ (∀ c ∈ l, k < c.1) ∧ rising l = true := by
  induction l generalizing k w with
  | nil => simp [rising]
  | cons c rest ih =>
    obtain ⟨j, u⟩ := c
    rw [rising, Bool.and_eq_true, decide_eq_true_eq]
    constructor
    · rintro ⟨hk, hr⟩
      refine ⟨?_, hr⟩
      have hj := (ih.mp hr).1
      rintro c hc
      rcases List.mem_cons.mp hc with rfl | hc
      · exact hk
      · exact lt_trans hk (hj c hc)
    · rintro ⟨hk, hr⟩
      exact ⟨hk (j, u) (by simp), hr⟩

theorem mem_putCell {l : List Host.Cell} {a : Nat} {v : Byte} {c : Host.Cell} (hc : c ∈ putCell l a v) :
    c = (a, v) ∨ c ∈ l := by
  induction l with
  | nil => simpa [putCell] using hc
  | cons d rest ih =>
    obtain ⟨k, u⟩ := d
    simp only [putCell] at hc
    split at hc
    · simpa using hc
    · split at hc
      · rcases List.mem_cons.mp hc with rfl | hc
        · exact .inl rfl
        · exact .inr (List.mem_cons_of_mem _ hc)
      · rcases List.mem_cons.mp hc with rfl | hc
        · exact .inr (by simp)
        · exact (ih hc).imp_right (List.mem_cons_of_mem _)

theorem rising_putCell {l : List Host.Cell} (a : Nat) (v : Byte) (h : rising l = true) :
    rising (putCell l a v) = true := by
  induction l with
  | nil => rfl
  | cons c rest ih =>
    obtain ⟨k, u⟩ := c
    obtain ⟨hk, hr⟩ := rising_cons.mp h
    simp only [putCell]
    split
    · next hlt =>
      refine rising_cons.mpr ⟨?_, h⟩
      rintro c hc
      rcases List.mem_cons.mp hc with rfl | hc
      · exact hlt
      · exact lt_trans hlt (hk c hc)
    · split
      · next heq => subst heq; exact rising_cons.mpr ⟨hk, hr⟩
      · next hlt hne =>
        refine rising_cons.mpr ⟨?_, ih hr⟩
        rintro c hc
        rcases mem_putCell hc with rfl | hc
        · show k < a
          omega
        · exact hk c hc

theorem cellAt_eq_none {l : List Host.Cell} {a : Nat} (h : ∀ c ∈ l, a < c.1) : cellAt l a = none := by
  induction l with
  | nil => rfl
  | cons c rest ih =>
    obtain ⟨k, u⟩ := c
    have hk : a < k := h (k, u) (by simp)
    simp [cellAt, Nat.ne_of_lt hk, ih fun c hc => h c (List.mem_cons_of_mem _ hc)]

/-- Two rising lists that list the same byte at every address are the same list. -/
theorem eq_of_cellAt_eq {l m : List Host.Cell} (hl : rising l = true) (hm : rising m = true)
    (h : ∀ a, cellAt l a = cellAt m a) : l = m := by
  induction l generalizing m with
  | nil =>
    cases m with
    | nil => rfl
    | cons c rest => obtain ⟨k, u⟩ := c; simpa [cellAt] using h k
  | cons c rest ih =>
    obtain ⟨k, u⟩ := c
    obtain ⟨hk, hr⟩ := rising_cons.mp hl
    cases m with
    | nil => simpa [cellAt] using h k
    | cons c' rest' =>
      obtain ⟨k', u'⟩ := c'
      obtain ⟨hk', hr'⟩ := rising_cons.mp hm
      have hkk : k = k' := by
        rcases Nat.lt_trichotomy k k' with hlt | heq | hgt
        · have := h k
          simp [cellAt, Nat.ne_of_lt hlt, cellAt_eq_none fun c hc => lt_trans hlt (hk' c hc)] at this
        · exact heq
        · have := h k'
          simp [cellAt, Nat.ne_of_lt hgt, cellAt_eq_none fun c hc => lt_trans hgt (hk c hc)] at this
      subst hkk
      have hu : u = u' := by simpa [cellAt] using h k
      subst hu
      have htail : ∀ a, cellAt rest a = cellAt rest' a := by
        intro a
        by_cases ha : a = k
        · subst ha
          rw [cellAt_eq_none hk, cellAt_eq_none hk']
        · simpa [cellAt, ha] using h a
      rw [ih hr hr' htail]

/-! The same of segments. -/

@[simp] theorem Segment.len_write (g : Segment) (i : Nat) (v : Byte) : (g.write i v).len = g.len := rfl
@[simp] theorem Segment.seed_write (g : Segment) (i : Nat) (v : Byte) : (g.write i v).seed = g.seed := rfl
@[simp] theorem Segment.len_fresh (n k : Nat) : (Segment.fresh n k).len = n := rfl
@[simp] theorem Segment.seed_fresh (n k : Nat) : (Segment.fresh n k).seed = k := rfl
@[simp] theorem Segment.wf_fresh (n k : Nat) : (Segment.fresh n k).wf = true := rfl
@[simp] theorem Segment.cell?_fresh (n k i : Nat) : (Segment.fresh n k).cell? i = none := rfl
@[simp] theorem Segment.read_fresh (n k i : Nat) : (Segment.fresh n k).read i = Config.unspec k i := rfl

theorem Segment.cell?_write (g : Segment) (i j : Nat) (v : Byte) :
    (g.write i v).cell? j = if j = i then some v else g.cell? j := cellAt_putCell _ _ _ _

theorem Segment.read_write (g : Segment) (i j : Nat) (v : Byte) :
    (g.write i v).read j = if j = i then v else g.read j := by
  unfold Segment.read
  rw [Segment.cell?_write]
  by_cases h : j = i <;> simp [h]

@[simp] theorem Segment.write_write (g : Segment) (i : Nat) (v w : Byte) : (g.write i v).write i w = g.write i w := by
  simp [Segment.write, putCell_putCell]

theorem Segment.wf_write {g : Segment} {i : Nat} (v : Byte) (h : g.wf = true) (hi : i < g.len) :
    (g.write i v).wf = true := by
  simp only [Segment.wf, Bool.and_eq_true, List.all_eq_true, decide_eq_true_eq] at h ⊢
  refine ⟨rising_putCell i v h.1, fun c hc => ?_⟩
  rcases mem_putCell hc with rfl | hc
  · exact hi
  · exact h.2 c hc

@[simp] theorem Segment.len_writeBytes (g : Segment) (i : Nat) (bs : List Byte) : (g.writeBytes i bs).len = g.len := by
  induction bs generalizing g i with
  | nil => rfl
  | cons b rest ih => simp [Segment.writeBytes, ih]

@[simp] theorem Segment.seed_writeBytes (g : Segment) (i : Nat) (bs : List Byte) :
    (g.writeBytes i bs).seed = g.seed := by
  induction bs generalizing g i with
  | nil => rfl
  | cons b rest ih => simp [Segment.writeBytes, ih]

theorem Segment.wf_writeBytes {g : Segment} {i : Nat} {bs : List Byte} (h : g.wf = true) (hi : i + bs.length ≤ g.len) :
    (g.writeBytes i bs).wf = true := by
  induction bs generalizing g i with
  | nil => exact h
  | cons b rest ih =>
    simp only [List.length_cons] at hi
    exact ih (Segment.wf_write b h (by omega)) (by simp; omega)

/-- A cell after a bulk write: the payload's byte inside the range, the old byte outside it. -/
theorem Segment.read_writeBytes (g : Segment) (i j : Nat) (bs : List Byte) :
    (g.writeBytes i bs).read j = if i ≤ j ∧ j < i + bs.length then bs.getD (j - i) 0 else g.read j := by
  induction bs generalizing g i with
  | nil =>
    simp [Segment.writeBytes]
  | cons b rest ih =>
    rw [Segment.writeBytes, ih, Segment.read_write]
    simp only [List.length_cons]
    by_cases h1 : j = i
    · subst h1
      simp
    · by_cases h2 : i ≤ j ∧ j < i + (rest.length + 1)
      · have h3 : i + 1 ≤ j ∧ j < i + 1 + rest.length := by omega
        have h4 : j - i = (j - (i + 1)) + 1 := by omega
        rw [if_pos h3, if_pos h2, h4]
        simp
      · have h3 : ¬ (i + 1 ≤ j ∧ j < i + 1 + rest.length) := by omega
        rw [if_neg h3, if_neg h2, if_neg h1]

end Sys2Proof.Machine
end

