-- ==== Sys2Proof/Laws/Encoding.lean ====
section
/-! SUPPORT. Packing and unpacking a transaction word, and the opcode map both ways. -/

namespace Sys2Proof

theorem opOfCode_code (o : Op) : opOfCode o.code = some o := by cases o <;> decide

theorem code_of_opOfCode {c : BitVec 8} {o : Op} (h : opOfCode c = some o) : o.code = c := by
  have := List.find?_some h
  simpa using this

/-- No two operations share an OP value. -/
theorem code_injective {o p : Op} (h : o.code = p.code) : o = p := by
  have := congrArg opOfCode h
  simpa [opOfCode_code] using this

@[simp] theorem unpack_pack (f : TxnFields) : unpack f.pack = f := by
  obtain ⟨op, sel, rsv, drv, addr16, data8, imm24⟩ := f
  simp only [unpack, TxnFields.pack, TxnFields.mk.injEq]
  refine ⟨?_, ?_, ?_, ?_, ?_, ?_, ?_⟩ <;>
  · apply BitVec.eq_of_getLsbD_eq
    intro i hi
    simp only [BitVec.getLsbD_extractLsb', BitVec.getLsbD_append, hi, decide_true, Bool.true_and]
    split_ifs <;> first | omega | (congr 1; omega)

@[simp] theorem imm_immBits {i : Int} (h : immOk i = true) : (immBits i).toInt = i := by
  simp only [immOk, Bool.and_eq_true, decide_eq_true_eq] at h
  rw [immBits, BitVec.toInt_ofInt]
  rw [Int.bmod_eq_of_le] <;> omega

theorem takePayload_ok {n : Nat} {p q : List Byte} (h : takePayload n p = .ok q) : q = p ∧ p.length = n := by
  unfold takePayload at h
  split at h
  · cases h
  · split at h
    · cases h
    · cases h; exact ⟨rfl, by omega⟩

theorem takePayload_length (p : List Byte) : takePayload p.length p = .ok p := by simp [takePayload]

end Sys2Proof
end

