-- ==== Sys2Proof/Laws/Outcomes.lean ====
section
/-! SUPPORT. What each shared operation can answer, said once. -/

namespace Sys2Proof.Machine

/-! ## The guards -/

theorem running_of_none {s : State} {k : Host.Outcome State Fault Refusal} (h : s.fault = none) : running s k = k := by
  simp [running, h]

theorem running_of_some {s : State} {k : Host.Outcome State Fault Refusal} {r : FaultRecord} (h : s.fault = some r) :
    running s k = .fault (.halted r) := by
  simp [running, h]

/-- A guard that lets a next state through was passed in a state without a fault. -/
theorem running_next {s t : State} {k : Host.Outcome State Fault Refusal} (h : running s k = .next t) :
    s.fault = none ∧ k = .next t := by
  unfold running at h
  split at h
  · cases h
  · next hs => exact ⟨hs, h⟩

theorem refuse_of_none {reason : Refusal} {s : State} (h : s.fault = none) : refuse reason s = .next s.markRefused := by
  simp [refuse, h]

theorem refuse_of_some {reason : Refusal} {s : State} {r : FaultRecord} (h : s.fault = some r) :
    refuse reason s = .refused reason := by
  simp [refuse, h]

/-- A refusal that has a next state is one of a running block, and marks the run. -/
theorem refuse_next {reason : Refusal} {s t : State} (h : refuse reason s = .next t) :
    s.fault = none ∧ t = s.markRefused := by
  unfold refuse at h
  split at h
  · cases h
  · next hs => exact ⟨hs, by cases h; rfl⟩

theorem withDrive_of_some {d : DriveIx} {s : State} {D : Drive} {k : Drive → Host.Outcome State Fault Refusal}
    (hD : s.drives[d.toNat]? = some D) : withDrive d s k = running s (k D) := by
  simp [withDrive, hD]

theorem withDrive_next {d : DriveIx} {s t : State} {k : Drive → Host.Outcome State Fault Refusal}
    (h : withDrive d s k = .next t) :
    s.fault = none ∧ ((s.drives.length ≤ d.toNat ∧ t = s.markRefused) ∨
      ∃ D, s.drives[d.toNat]? = some D ∧ k D = .next t) := by
  unfold withDrive at h
  split at h
  · next hD => exact ⟨(refuse_next h).1, .inl ⟨List.getElem?_eq_none_iff.mp hD, (refuse_next h).2⟩⟩
  · next D hD => exact ⟨(running_next h).1, .inr ⟨D, hD, (running_next h).2⟩⟩

/-- A drive that does not exist is refused. -/
theorem withDrive_of_le {d : DriveIx} {s : State} {k : Drive → Host.Outcome State Fault Refusal}
    (hd : s.drives.length ≤ d.toNat) : withDrive d s k = refuse (.driveOutOfRange d) s := by
  simp [withDrive, List.getElem?_eq_none_iff.mpr hd]

/-- A drive index within bounds names a drive. -/
theorem drive_of_ok {s : State} {d : DriveIx} (h : driveOk s.drives.length d = true) :
    ∃ D, s.drives[d.toNat]? = some D := by
  have hd : d.toNat < s.drives.length := by simpa [driveOk] using h
  exact ⟨_, List.getElem?_eq_getElem hd⟩

theorem driveOk_of_some {s : State} {d : DriveIx} {D : Drive} (h : s.drives[d.toNat]? = some D) :
    driveOk s.drives.length d = true := by
  obtain ⟨hd, -⟩ := List.getElem?_eq_some_iff.mp h
  simpa [driveOk] using hd

theorem withSeg_of_ok {r : SegRef} {s : State} {k : Host.Outcome State Fault Refusal}
    (h : r.ok s.drives.length = true) : withSeg r s k = running s k := by
  cases r with
  | buf b d => obtain ⟨D, hD⟩ := drive_of_ok h; exact withDrive_of_some hD
  | _ => rfl

theorem driveOk_eq_false {n : Nat} {d : DriveIx} : driveOk n d = false ↔ n ≤ d.toNat := by simp [driveOk]

theorem withSeg_next {r : SegRef} {s t : State} {k : Host.Outcome State Fault Refusal} (h : withSeg r s k = .next t) :
    s.fault = none ∧ ((r.ok s.drives.length = false ∧ t = s.markRefused) ∨
      (r.ok s.drives.length = true ∧ k = .next t)) := by
  cases r with
  | buf b d =>
    obtain ⟨hf, ⟨hd, rfl⟩ | ⟨D, hD, hk⟩⟩ := withDrive_next h
    · exact ⟨hf, .inl ⟨driveOk_eq_false.mpr hd, rfl⟩⟩
    · exact ⟨hf, .inr ⟨driveOk_of_some hD, hk⟩⟩
  | _ => exact ⟨(running_next h).1, .inr ⟨rfl, (running_next h).2⟩⟩

/-- A segment that is there is one whose drive exists. -/
theorem segRef_ok_of_segOf {s : State} {r : SegRef} {g : Segment} (h : s.segOf r = some g) :
    r.ok s.drives.length = true := by
  cases r with
  | buf b d =>
    cases hD : s.drives[d.toNat]? with
    | none => simp [State.segOf, hD] at h
    | some D => exact driveOk_of_some hD
  | _ => rfl

/-- Completion or a fatal fault, nothing else. -/
theorem nextOrFatal_next {s t : State} {r : FaultRecord} {o : Option State} (h : nextOrFatal s r o = .next t) :
    o = some t ∨ (o = none ∧ t = s.raiseFatal r) := by
  cases o with
  | none => exact .inr ⟨rfl, by simpa [nextOrFatal] using h.symm⟩
  | some u => exact .inl (by simpa [nextOrFatal] using h)

/-! ## The segment read and writes -/

@[simp] theorem inBounds_iff {i : Int} {n : Nat} : inBounds i n = true ↔ 0 ≤ i ∧ i < n := by simp [inBounds]

theorem inBounds_eq_false {i : Int} {n : Nat} : inBounds i n = false ↔ i < 0 ∨ (n : Int) ≤ i := by
  simp only [inBounds, Bool.and_eq_false_iff, decide_eq_false_iff_not]
  omega

/-- The length of a segment that is there. -/
theorem State.segLen_of_some {s : State} {r : SegRef} {g : Segment} (h : s.segOf r = some g) : s.segLen r = g.len := by
  simp [State.segLen, h]

theorem State.segGet?_of_mem {s : State} {r : SegRef} {g : Segment} {i : Int} (h : s.segOf r = some g) (h0 : 0 ≤ i)
    (h1 : i < g.len) : s.segGet? r i = some (g.read i.toNat) := by
  simp [State.segGet?, h, inBounds_iff.mpr ⟨h0, h1⟩]

theorem State.segSet?_of_mem {s : State} {r : SegRef} {g : Segment} {i : Int} (v : Byte) (h : s.segOf r = some g)
    (h0 : 0 ≤ i) (h1 : i < g.len) : s.segSet? r i v = some (s.setSeg r (g.write i.toNat v)) := by
  simp [State.segSet?, h, inBounds_iff.mpr ⟨h0, h1⟩]

/-- Out of bounds is exactly where the read answers nothing. -/
theorem State.segGet?_eq_none {s : State} {r : SegRef} {i : Int} :
    s.segGet? r i = none ↔ i < 0 ∨ (s.segLen r : Int) ≤ i := by
  unfold State.segGet? State.segLen
  cases s.segOf r with
  | none => simp; omega
  | some g =>
    rw [← inBounds_eq_false]
    by_cases h : inBounds i g.len = true <;> simp [h, -inBounds_iff]

theorem State.segSet?_eq_none {s : State} {r : SegRef} {i : Int} {v : Byte} :
    s.segSet? r i v = none ↔ i < 0 ∨ (s.segLen r : Int) ≤ i := by
  unfold State.segSet? State.segLen
  cases s.segOf r with
  | none => simp; omega
  | some g =>
    rw [← inBounds_eq_false]
    by_cases h : inBounds i g.len = true <;> simp [h, -inBounds_iff]

theorem State.segGet?_some {s : State} {r : SegRef} {i : Int} {v : Byte} (h : s.segGet? r i = some v) :
    ∃ g, s.segOf r = some g ∧ 0 ≤ i ∧ i < g.len ∧ v = g.read i.toNat := by
  have hb : ¬ (i < 0 ∨ (s.segLen r : Int) ≤ i) := by rw [← State.segGet?_eq_none, h]; simp
  cases hg : s.segOf r with
  | none => simp [State.segGet?, hg] at h
  | some g =>
    rw [State.segLen_of_some hg] at hb
    rw [State.segGet?_of_mem hg (by omega) (by omega)] at h
    exact ⟨g, rfl, by omega, by omega, (Option.some.inj h).symm⟩

theorem State.segSet?_some {s t : State} {r : SegRef} {i : Int} {v : Byte} (h : s.segSet? r i v = some t) :
    ∃ g, s.segOf r = some g ∧ 0 ≤ i ∧ i < g.len ∧ t = s.setSeg r (g.write i.toNat v) := by
  have hb : ¬ (i < 0 ∨ (s.segLen r : Int) ≤ i) := by rw [← State.segSet?_eq_none (v := v), h]; simp
  cases hg : s.segOf r with
  | none => simp [State.segSet?, hg] at h
  | some g =>
    rw [State.segLen_of_some hg] at hb
    rw [State.segSet?_of_mem v hg (by omega) (by omega)] at h
    exact ⟨g, rfl, by omega, by omega, (Option.some.inj h).symm⟩

/-- A bulk write that fits either writes its segment or, empty on an absent buffer, changes nothing. -/
theorem State.segCopy?_some {s t : State} {r : SegRef} {start : Int} {bs : List Byte}
    (h : s.segCopy? r start bs = some t) :
    0 ≤ start ∧ start + bs.length ≤ s.segLen r ∧
      ((∃ g, s.segOf r = some g ∧ t = s.setSeg r (g.writeBytes start.toNat bs)) ∨ (s.segOf r = none ∧ t = s)) := by
  unfold State.segCopy? at h
  split at h
  · cases h
  · next hb =>
    refine ⟨by omega, by omega, ?_⟩
    split at h
    · next g hg => exact .inl ⟨g, hg, (Option.some.inj h).symm⟩
    · next hg => exact .inr ⟨hg, (Option.some.inj h).symm⟩

theorem State.segCopy?_eq_none {s : State} {r : SegRef} {start : Int} {bs : List Byte} :
    s.segCopy? r start bs = none ↔ start < 0 ∨ (s.segLen r : Int) < start + bs.length := by
  unfold State.segCopy?
  by_cases h : start < 0 ∨ start + bs.length > s.segLen r
  · simp [h]
  · simp only [h, if_false]
    cases s.segOf r <;> simp_all

theorem State.segCopy?_of_mem {s : State} {r : SegRef} {g : Segment} {start : Int} {bs : List Byte}
    (h : s.segOf r = some g) (h0 : 0 ≤ start) (h1 : start + bs.length ≤ g.len) :
    s.segCopy? r start bs = some (s.setSeg r (g.writeBytes start.toNat bs)) := by
  have hb : ¬ (start < 0 ∨ start + bs.length > s.segLen r) := by
    rw [State.segLen_of_some h]
    omega
  simp [State.segCopy?, hb, h]

end Sys2Proof.Machine
end

