-- ==== Sys2Proof/Laws/Meanings.lean ====
section
/-! SUPPORT. What each meaning can do, said once: if it answers a next state, then one of these cases holds. -/

namespace Sys2Proof.Machine

/-! ## The CPU bus -/

theorem busReadCell_next {r : SegRef} {i : Nat} {s t : State} (h : busReadCell r i s = .next t) :
    (∃ g, s.segOf r = some g ∧ i < g.len ∧ t = s.respond (.byte (g.read i))) ∨
      (s.segLen r ≤ i ∧ t = s.raiseFatal (faultRecord faultBus r.sel 0 i)) := by
  rcases nextOrFatal_next h with ho | ⟨ho, rfl⟩
  · obtain ⟨v, hv, rfl⟩ := Option.map_eq_some_iff.mp ho
    obtain ⟨g, hg, -, h1, rfl⟩ := State.segGet?_some hv
    exact .inl ⟨g, hg, by exact_mod_cast h1, by simp⟩
  · have := State.segGet?_eq_none.mp (Option.map_eq_none_iff.mp ho)
    exact .inr ⟨by omega, rfl⟩

theorem busWriteCell_next {r : SegRef} {i : Nat} {v : Byte} {s t : State} (h : busWriteCell r i v s = .next t) :
    (∃ g, s.segOf r = some g ∧ i < g.len ∧ t = (s.setSeg r (g.write i v)).respond .done) ∨
      (s.segLen r ≤ i ∧ t = s.raiseFatal (faultRecord faultBus r.sel 0 i)) := by
  rcases nextOrFatal_next h with ho | ⟨ho, rfl⟩
  · obtain ⟨u, hu, rfl⟩ := Option.map_eq_some_iff.mp ho
    obtain ⟨g, hg, -, h1, rfl⟩ := State.segSet?_some hu
    exact .inl ⟨g, hg, by exact_mod_cast h1, by simp⟩
  · have := State.segSet?_eq_none.mp (Option.map_eq_none_iff.mp ho)
    exact .inr ⟨by omega, rfl⟩

theorem busReadCell_of_lt {r : SegRef} {i : Nat} {s : State} {g : Segment} (hg : s.segOf r = some g) (hi : i < g.len) :
    busReadCell r i s = .next (s.respond (.byte (g.read i))) := by
  have h1 : (i : Int) < g.len := by exact_mod_cast hi
  simp [busReadCell, nextOrFatal, State.segGet?_of_mem hg (by omega) h1]

theorem busWriteCell_of_lt {r : SegRef} {i : Nat} {v : Byte} {s : State} {g : Segment} (hg : s.segOf r = some g)
    (hi : i < g.len) : busWriteCell r i v s = .next ((s.setSeg r (g.write i v)).respond .done) := by
  have h1 : (i : Int) < g.len := by exact_mod_cast hi
  simp [busWriteCell, nextOrFatal, State.segSet?_of_mem v hg (by omega) h1]

/-- Every CPU address lies below the end of Rom. -/
theorem romCell_lt (a : Addr) : romCell a < romSize := by
  have := a.isLt
  unfold romCell romSize
  omega

/-- A read resolves to a cell of Main or Aux below 0xC000, to the read trap, to the I/O page, to a Rom cell below 0x4000, or to
a peripheral card. -/
theorem resolveRead_cases (c : Config) (a : Addr) (m : Byte) :
    (a.toNat < 0xC000 ∧ resolveRead c a m = .ram (ramBank .readAux c a m) a.toNat) ∨
    (∃ k, 0xC000 ≤ a.toNat ∧ readTrap c.switchTable a = some k ∧ resolveRead c a m = .trap k) ∨
    (0xC000 ≤ a.toNat ∧ readTrap c.switchTable a = none ∧
      (resolveRead c a m = .extIo a ∨ resolveRead c a m = .periph a ∨
        (resolveRead c a m = .rom (romCell a) ∧ romCell a < romSize))) := by
  unfold resolveRead
  by_cases h : a.toNat < 0xC000
  · exact .inl ⟨h, by rw [if_pos h]⟩
  · right
    have hc := romCell_lt a
    simp only [h, if_false]
    cases readTrap c.switchTable a with
    | some k => exact .inl ⟨k, by omega, rfl, rfl⟩
    | none =>
      refine .inr ⟨by omega, rfl, ?_⟩
      simp only
      split
      · exact .inl rfl
      · split
        · unfold romWindow
          split
          · exact .inr (.inr ⟨rfl, hc⟩)
          · split
            · split
              · exact .inr (.inl rfl)
              · exact .inr (.inr ⟨rfl, hc⟩)
            · split
              · split
                · exact .inr (.inl rfl)
                · exact .inr (.inr ⟨rfl, hc⟩)
              · exact .inr (.inl rfl)
        · exact .inr (.inr ⟨rfl, hc⟩)

/-- A write resolves to a cell of Main or Aux below 0xC000, to the write trap, to the I/O page, or to nothing. -/
theorem resolveWrite_cases (c : Config) (a : Addr) (m : Byte) :
    (a.toNat < 0xC000 ∧ resolveWrite c a m = .ram (ramBank .writeAux c a m) a.toNat) ∨
    (∃ k, 0xC000 ≤ a.toNat ∧ writeTrap c.switchTable a = some k ∧ resolveWrite c a m = .trap k) ∨
    (0xC000 ≤ a.toNat ∧ writeTrap c.switchTable a = none ∧
      (resolveWrite c a m = .extIo a ∨ resolveWrite c a m = .discard)) := by
  unfold resolveWrite
  by_cases h : a.toNat < 0xC000
  · exact .inl ⟨h, by rw [if_pos h]⟩
  · right
    simp only [h, if_false]
    cases writeTrap c.switchTable a with
    | some k => exact .inl ⟨k, by omega, rfl, rfl⟩
    | none =>
      refine .inr ⟨by omega, rfl, ?_⟩
      simp only
      split
      · exact .inl rfl
      · exact .inr rfl

/-- Everything BUS_RD can do. -/
theorem execBusRd_next {a : Addr} {s t : State} (h : execBusRd a s = .next t) :
    s.fault = none ∧
      ((∃ r i g, s.segOf r = some g ∧ i < g.len ∧ t = s.respond (.byte (g.read i)) ∧
          (resolveRead s.cfg a s.memMode = .rom i ∧ r = .rom ∨
            ∃ b, resolveRead s.cfg a s.memMode = .ram b i ∧ r = b.ref)) ∨
        (∃ r i, s.segLen r ≤ i ∧ t = s.raiseFatal (faultRecord faultBus r.sel 0 i) ∧
          (resolveRead s.cfg a s.memMode = .rom i ∧ r = .rom ∨
            ∃ b, resolveRead s.cfg a s.memMode = .ram b i ∧ r = b.ref)) ∨
        (∃ k, resolveRead s.cfg a s.memMode = .trap k ∧
          t = { s with memMode := (runTrap k s.memMode).2 }.respond (.byte (runTrap k s.memMode).1)) ∨
        (∃ v, t = s.drawn.respond (.byte v))) := by
  obtain ⟨hf, hk⟩ := running_next h
  refine ⟨hf, ?_⟩
  split at hk
  · next b i hr =>
    rcases busReadCell_next hk with ⟨g, hg, hi, rfl⟩ | ⟨hi, rfl⟩
    · exact .inl ⟨_, i, g, hg, hi, rfl, .inr ⟨b, hr, rfl⟩⟩
    · exact .inr (.inl ⟨_, i, hi, rfl, .inr ⟨b, hr, rfl⟩⟩)
  · next k hr => cases hk; exact .inr (.inr (.inl ⟨k, hr, rfl⟩))
  · cases hk; exact .inr (.inr (.inr ⟨_, rfl⟩))
  · next i hr =>
    rcases busReadCell_next hk with ⟨g, hg, hi, rfl⟩ | ⟨hi, rfl⟩
    · exact .inl ⟨_, i, g, hg, hi, rfl, .inl ⟨hr, rfl⟩⟩
    · exact .inr (.inl ⟨_, i, hi, rfl, .inl ⟨hr, rfl⟩⟩)
  · cases hk; exact .inr (.inr (.inr ⟨_, rfl⟩))

/-- Everything BUS_WR can do. -/
theorem execBusWr_next {a : Addr} {v : Byte} {s t : State} (h : execBusWr a v s = .next t) :
    s.fault = none ∧
      ((∃ b i g, resolveWrite s.cfg a s.memMode = .ram b i ∧ s.segOf b.ref = some g ∧ i < g.len ∧
          t = (s.setSeg b.ref (g.write i v)).respond .done) ∨
        (∃ b i, resolveWrite s.cfg a s.memMode = .ram b i ∧ s.segLen b.ref ≤ i ∧
          t = s.raiseFatal (faultRecord faultBus b.ref.sel 0 i)) ∨
        (∃ k, resolveWrite s.cfg a s.memMode = .trap k ∧
          t = { s with memMode := (runTrap k s.memMode).2 }.respond .done) ∨
        (resolveWrite s.cfg a s.memMode = .extIo a ∧ t = s.presentExt a v) ∨
        (resolveWrite s.cfg a s.memMode = .discard ∧ t = s.respond .done)) := by
  obtain ⟨hf, hk⟩ := running_next h
  refine ⟨hf, ?_⟩
  split at hk
  · next b i hr =>
    rcases busWriteCell_next hk with ⟨g, hg, hi, rfl⟩ | ⟨hi, rfl⟩
    · exact .inl ⟨b, i, g, hr, hg, hi, rfl⟩
    · exact .inr (.inl ⟨b, i, hr, hi, rfl⟩)
  · next k hr => cases hk; exact .inr (.inr (.inl ⟨k, hr, rfl⟩))
  · next x hr =>
    cases hk
    have hx : x = a := by
      rcases resolveWrite_cases s.cfg a s.memMode with ⟨-, h'⟩ | ⟨k, -, -, h'⟩ | ⟨-, -, h' | h'⟩ <;>
        rw [h'] at hr <;> cases hr
      rfl
    subst hx
    exact .inr (.inr (.inr (.inl ⟨hr, rfl⟩)))
  · next hr => cases hk; exact .inr (.inr (.inr (.inr ⟨hr, rfl⟩)))

/-! ## The segment port -/

theorem execSegGet_next {r : SegRef} {i : Int} {s t : State} (h : execSegGet r i s = .next t) :
    s.fault = none ∧ ((r.ok s.drives.length = false ∧ t = s.markRefused) ∨ (r.ok s.drives.length = true ∧
      ((∃ g, s.segOf r = some g ∧ 0 ≤ i ∧ i < g.len ∧ t = s.respond (.byte (g.read i.toNat))) ∨
        ((i < 0 ∨ (s.segLen r : Int) ≤ i) ∧ t = s.raiseFatal (faultRecord faultSegGet r.sel r.drv i))))) := by
  obtain ⟨hf, hr | ⟨hr, hk⟩⟩ := withSeg_next h
  · exact ⟨hf, .inl hr⟩
  refine ⟨hf, .inr ⟨hr, ?_⟩⟩
  rcases nextOrFatal_next hk with ho | ⟨ho, rfl⟩
  · obtain ⟨v, hv, rfl⟩ := Option.map_eq_some_iff.mp ho
    obtain ⟨g, hg, h0, h1, rfl⟩ := State.segGet?_some hv
    exact .inl ⟨g, hg, h0, h1, rfl⟩
  · exact .inr ⟨State.segGet?_eq_none.mp (Option.map_eq_none_iff.mp ho), rfl⟩

theorem execSegSet_next {r : SegRef} {i : Int} {v : Byte} {s t : State} (h : execSegSet r i v s = .next t) :
    s.fault = none ∧ ((r.ok s.drives.length = false ∧ t = s.markRefused) ∨ (r.ok s.drives.length = true ∧
      ((∃ g, s.segOf r = some g ∧ 0 ≤ i ∧ i < g.len ∧ t = (s.setSeg r (g.write i.toNat v)).respond .done) ∨
        ((i < 0 ∨ (s.segLen r : Int) ≤ i) ∧ t = s.raiseFatal (faultRecord faultSegSet r.sel r.drv i))))) := by
  obtain ⟨hf, hr | ⟨hr, hk⟩⟩ := withSeg_next h
  · exact ⟨hf, .inl hr⟩
  refine ⟨hf, .inr ⟨hr, ?_⟩⟩
  rcases nextOrFatal_next hk with ho | ⟨ho, rfl⟩
  · obtain ⟨u, hu, rfl⟩ := Option.map_eq_some_iff.mp ho
    obtain ⟨g, hg, h0, h1, rfl⟩ := State.segSet?_some hu
    exact .inl ⟨g, hg, h0, h1, rfl⟩
  · exact .inr ⟨State.segSet?_eq_none.mp (Option.map_eq_none_iff.mp ho), rfl⟩

theorem execSegCopy_next {r : SegRef} {start : Int} {bs : List Byte} {s t : State}
    (h : execSegCopy r start bs s = .next t) :
    s.fault = none ∧ ((r.ok s.drives.length = false ∧ t = s.markRefused) ∨ (r.ok s.drives.length = true ∧
      (((start < 0 ∨ (s.segLen r : Int) < start + bs.length) ∧ t = s.respond (.copyErr errCopyBounds)) ∨
        (0 ≤ start ∧ start + bs.length ≤ s.segLen r ∧
          ((∃ g, s.segOf r = some g ∧
              t = (s.setSeg r (g.writeBytes start.toNat bs)).respond (.copyOk bs.length)) ∨
            (s.segOf r = none ∧ t = s.respond (.copyOk bs.length))))))) := by
  obtain ⟨hf, hr | ⟨hr, hk⟩⟩ := withSeg_next h
  · exact ⟨hf, .inl hr⟩
  refine ⟨hf, .inr ⟨hr, ?_⟩⟩
  split at hk
  · next ho => cases hk; exact .inl ⟨State.segCopy?_eq_none.mp ho, rfl⟩
  · next u hu =>
    cases hk
    obtain ⟨h0, h1, ⟨g, hg, rfl⟩ | ⟨hg, rfl⟩⟩ := State.segCopy?_some hu
    · exact .inr ⟨h0, h1, .inl ⟨g, hg, rfl⟩⟩
    · exact .inr ⟨h0, h1, .inr ⟨hg, rfl⟩⟩

theorem execSegSize_next {r : SegRef} {s t : State} (h : execSegSize r s = .next t) :
    s.fault = none ∧ ((r.ok s.drives.length = false ∧ t = s.markRefused) ∨
      (r.ok s.drives.length = true ∧ t = s.respond (.int (s.segLen r)))) := by
  obtain ⟨hf, hr | ⟨hr, hk⟩⟩ := withSeg_next h
  · exact ⟨hf, .inl hr⟩
  · exact ⟨hf, .inr ⟨hr, by cases hk; rfl⟩⟩

theorem execSegAttach_next {b : BufSel} {d : DriveIx} {n : Nat} {s t : State} (h : execSegAttach b d n s = .next t) :
    s.fault = none ∧ ((s.drives.length ≤ d.toNat ∧ t = s.markRefused) ∨ ∃ D, s.drives[d.toNat]? = some D ∧
      t = (s.drawn.setDrive d (D.setBuf b (Segment.fresh n s.draws))).respond .done) := by
  obtain ⟨hf, hd | ⟨D, hD, hk⟩⟩ := withDrive_next h
  · exact ⟨hf, .inl hd⟩
  · exact ⟨hf, .inr ⟨D, hD, by cases hk; rfl⟩⟩

/-! ## The drive port and the rest -/

theorem updateDrive_next {d : DriveIx} {f : Drive → Drive} {s t : State} (h : updateDrive d f s = .next t) :
    s.fault = none ∧ ((s.drives.length ≤ d.toNat ∧ t = s.markRefused) ∨
      ∃ D, s.drives[d.toNat]? = some D ∧ t = (s.setDrive d (f D)).respond .done) := by
  obtain ⟨hf, hd | ⟨D, hD, hk⟩⟩ := withDrive_next h
  · exact ⟨hf, .inl hd⟩
  · exact ⟨hf, .inr ⟨D, hD, by cases hk; rfl⟩⟩

theorem updateDrive_of_some {d : DriveIx} {f : Drive → Drive} {s : State} {D : Drive} (hf : s.fault = none)
    (hD : s.drives[d.toNat]? = some D) : updateDrive d f s = .next ((s.setDrive d (f D)).respond .done) := by
  simp [updateDrive, withDrive_of_some hD, running_of_none hf]

theorem reportDrive_next {d : DriveIx} {f : Drive → Response} {s t : State} (h : reportDrive d f s = .next t) :
    s.fault = none ∧ ((s.drives.length ≤ d.toNat ∧ t = s.markRefused) ∨
      ∃ D, s.drives[d.toNat]? = some D ∧ t = s.respond (f D)) := by
  obtain ⟨hf, hd | ⟨D, hD, hk⟩⟩ := withDrive_next h
  · exact ⟨hf, .inl hd⟩
  · exact ⟨hf, .inr ⟨D, hD, by cases hk; rfl⟩⟩

theorem reportDrive_of_some {d : DriveIx} {f : Drive → Response} {s : State} {D : Drive} (hf : s.fault = none)
    (hD : s.drives[d.toNat]? = some D) : reportDrive d f s = .next (s.respond (f D)) := by
  simp [reportDrive, withDrive_of_some hD, running_of_none hf]

/-- Writing back what is there changes nothing. -/
theorem State.setDrive_same {s : State} {d : DriveIx} {D : Drive} (hD : s.drives[d.toNat]? = some D) :
    s.setDrive d D = s := by
  obtain ⟨hlt, rfl⟩ := List.getElem?_eq_some_iff.mp hD
  simp [State.setDrive]

theorem execMmGet_next {s t : State} (h : execMmGet s = .next t) : s.fault = none ∧ t = s.respond (.byte s.memMode) := by
  obtain ⟨hf, hk⟩ := running_next h
  exact ⟨hf, by cases hk; rfl⟩

theorem execReset_next {s t : State} (h : execReset s = .next t) : s.fault = none ∧ t = s.create.respond .done := by
  obtain ⟨hf, hk⟩ := running_next h
  exact ⟨hf, by cases hk; rfl⟩

/-! ## What the drive updates keep -/

theorem Drive.Ok.step {D : Drive} (h : D.Ok) (off : Int) : (D.step off).Ok := by
  obtain ⟨hp, -, -, hb⟩ := h
  refine ⟨hp, ?_, ?_, hb⟩
  · simp only [Drive.step, Geometry.maxSteps]
    omega
  · simp [Drive.step, Geometry.physTrackLen]

theorem Drive.Ok.shift {D : Drive} (h : D.Ok) (off : Int) : (D.shift off).Ok := by
  unfold Drive.shift
  split
  · exact h
  · obtain ⟨hp, ht, hs, hb⟩ := h
    refine ⟨hp, ht, ?_, hb⟩
    simp only [Geometry.physTrackLen] at hs ⊢
    split_ifs <;> omega

theorem phaseDecode_range {a : Addr} {p : Int} (h : phaseDecode a = some p) : 1 ≤ p ∧ p ≤ 4 := by
  unfold phaseDecode at h
  split at h <;> cases h <;> omega

theorem Drive.Ok.stepPhase {D : Drive} (h : D.Ok) (a : Addr) : (D.stepPhase a).Ok := by
  unfold Drive.stepPhase
  split
  · exact h
  · next p hp =>
    obtain ⟨-, ht, hs, hb⟩ := h.step (phaseStep D.phase p)
    have := phaseDecode_range hp
    exact ⟨⟨by show (0 : Int) ≤ p; omega, by show p ≤ (4 : Int); omega⟩, ht, hs, hb⟩

theorem Drive.Ok.setBuf {D : Drive} (h : D.Ok) (b : BufSel) {g : Segment} (hg : g.wf = true) : (D.setBuf b g).Ok := by
  obtain ⟨hp, ht, hs, hd, hi⟩ := h
  cases b
  · exact ⟨hp, ht, hs, by simpa [Drive.setBuf] using hg, hi⟩
  · exact ⟨hp, ht, hs, hd, by simpa [Drive.setBuf] using hg⟩

theorem Drive.initial_ok : Drive.initial.Ok := by decide

end Sys2Proof.Machine
end

