-- ==== Sys2Proof/Laws/PerInstr.lean ====
section
/-! SUPPORT. Per transaction: what its word holds in OP and RSV, and how many bytes follow it (30_encoding.md R68, R76, R78). -/

namespace Sys2Proof.Laws.EncodedWord

/-- The word of a transaction carries its OP value and a clear RSV, and the bytes after it are its payload. -/
def Statement (i : Instr) : Prop :=
  (encode i).word.extractLsb' 0 8 = i.op.code ∧ (encode i).word.extractLsb' 11 1 = 0#1 ∧
    (i.op ≠ .segCopy → (encode i).payload = [])

/-- The fields of a word are those it was packed from. -/
theorem of_fields {i : Instr} (ho : i.fields.op = i.op.code) (hr : i.fields.rsv = 0#1)
    (hp : i.op ≠ .segCopy → i.payload = []) : Statement i := by
  have h := unpack_pack i.fields
  exact ⟨(congrArg TxnFields.op h).trans ho, (congrArg TxnFields.rsv h).trans hr, hp⟩

theorem busRd (a : Addr) : Statement (.busRd a) := of_fields rfl rfl fun _ => rfl
theorem busWr (a : Addr) (v : Byte) : Statement (.busWr a v) := of_fields rfl rfl fun _ => rfl
theorem mmGet : Statement .mmGet := of_fields rfl rfl fun _ => rfl
theorem segGet (r : SegRef) (k : Int) : Statement (.segGet r k) := of_fields rfl rfl fun _ => rfl
theorem segSet (r : SegRef) (k : Int) (v : Byte) : Statement (.segSet r k v) := of_fields rfl rfl fun _ => rfl
theorem segCopy (r : SegRef) (k : Int) (bytes : List Byte) : Statement (.segCopy r k bytes) :=
  of_fields rfl rfl fun h => absurd rfl h
theorem segSize (r : SegRef) : Statement (.segSize r) := of_fields rfl rfl fun _ => rfl
theorem segAttach (b : BufSel) (d : DriveIx) (n : Nat) : Statement (.segAttach b d n) := of_fields rfl rfl fun _ => rfl
theorem drvStepPhase (d : DriveIx) (a : Addr) : Statement (.drvStepPhase d a) := of_fields rfl rfl fun _ => rfl
theorem drvShift (d : DriveIx) (off : Int) : Statement (.drvShift d off) := of_fields rfl rfl fun _ => rfl
theorem drvStep (d : DriveIx) (off : Int) : Statement (.drvStep d off) := of_fields rfl rfl fun _ => rfl
theorem drvPosition (d : DriveIx) : Statement (.drvPosition d) := of_fields rfl rfl fun _ => rfl
theorem drvGetHead (d : DriveIx) : Statement (.drvGetHead d) := of_fields rfl rfl fun _ => rfl
theorem drvGetFlags (d : DriveIx) : Statement (.drvGetFlags d) := of_fields rfl rfl fun _ => rfl
theorem drvSetFlags (d : DriveIx) (v : Byte) : Statement (.drvSetFlags d v) := of_fields rfl rfl fun _ => rfl
theorem drvGetImagetype (d : DriveIx) : Statement (.drvGetImagetype d) := of_fields rfl rfl fun _ => rfl
theorem drvSetImagetype (d : DriveIx) (t : ImageType) : Statement (.drvSetImagetype d t) := of_fields rfl rfl fun _ => rfl
theorem reset : Statement .reset := of_fields rfl rfl fun _ => rfl

end Sys2Proof.Laws.EncodedWord
end

