-- ==== Sys2Proof/Laws/Refusal.lean ====
section
/-! SUPPORT. When a transaction is refused, and what happens to the mark of a refused run: said once for every transaction. -/

namespace Sys2Proof.Machine

theorem running_ne_refused {s : State} {k : Host.Outcome State Fault Refusal} (hk : ∀ r, k ≠ .refused r) (r : Refusal) :
    running s k ≠ .refused r := by
  unfold running
  split
  · simp
  · exact hk r

theorem nextOrFatal_ne_refused {s : State} {q : FaultRecord} {o : Option State} (r : Refusal) :
    nextOrFatal s q o ≠ .refused r := by
  cases o <;> simp [nextOrFatal]

/-- An outcome without a next state is the refusal of a faulted state. -/
theorem refuse_refused {reason r : Refusal} {s : State} (h : refuse reason s = .refused r) : s.fault ≠ none ∧ r = reason := by
  unfold refuse at h
  split at h
  · next q hq => exact ⟨by simp [hq], by cases h; rfl⟩
  · cases h

theorem withDrive_refused {d : DriveIx} {s : State} {r : Refusal} {k : Drive → Host.Outcome State Fault Refusal}
    (hk : ∀ D q, k D ≠ .refused q) (h : withDrive d s k = .refused r) :
    s.drives.length ≤ d.toNat ∧ s.fault ≠ none ∧ r = .driveOutOfRange d := by
  unfold withDrive at h
  split at h
  · next hn => exact ⟨List.getElem?_eq_none_iff.mp hn, refuse_refused h⟩
  · exact absurd h (running_ne_refused (hk _) r)

theorem withSeg_of_missing {q : SegRef} {d : DriveIx} {s : State} {k : Host.Outcome State Fault Refusal}
    (hq : q.drive? = some d) (hd : s.drives.length ≤ d.toNat) : withSeg q s k = refuse (.driveOutOfRange d) s := by
  cases q with
  | buf b e => cases hq; exact withDrive_of_le hd
  | _ => cases hq

theorem withSeg_refused {q : SegRef} {s : State} {r : Refusal} {k : Host.Outcome State Fault Refusal}
    (hk : ∀ q, k ≠ .refused q) (h : withSeg q s k = .refused r) :
    ∃ d, q.drive? = some d ∧ s.drives.length ≤ d.toNat ∧ s.fault ≠ none ∧ r = .driveOutOfRange d := by
  cases q with
  | buf b d => exact ⟨d, rfl, withDrive_refused (fun _ => hk) h⟩
  | _ => exact absurd h (running_ne_refused hk r)

/-- A segment is not well-formed exactly where its drive is missing. -/
theorem segRef_ok_eq_false {q : SegRef} {n : Nat} : q.ok n = false ↔ ∃ d, q.drive? = some d ∧ n ≤ d.toNat := by
  cases q with
  | buf b d => simpa [SegRef.ok, SegRef.drive?] using driveOk_eq_false
  | _ => simp [SegRef.ok, SegRef.drive?]

/-- A transaction of a drive that does not exist is refused, whatever else it is. -/
theorem exec_of_missing {i : Instr} {s : State} {d : DriveIx} (h : i.drive? = some d) (hd : s.drives.length ≤ d.toNat) :
    exec i s = refuse (.driveOutOfRange d) s := by
  cases i with
  | busRd _ | busWr _ _ | mmGet | reset => cases h
  | segGet q _ | segSet q _ _ | segCopy q _ _ | segSize q => exact withSeg_of_missing h hd
  | _ => cases h; exact withDrive_of_le hd

/-- A transaction answers a refusal for no other reason. -/
theorem exec_refused {i : Instr} {s : State} {r : Refusal} (h : exec i s = .refused r) :
    ∃ d, i.drive? = some d ∧ s.drives.length ≤ d.toNat ∧ s.fault ≠ none ∧ r = .driveOutOfRange d := by
  cases i with
  | busRd _ | busWr _ _ =>
    refine absurd h (running_ne_refused (fun r => ?_) r)
    split <;> first | (simp; done) | exact nextOrFatal_ne_refused r
  | mmGet | reset => exact absurd h (running_ne_refused (by simp) r)
  | segGet _ _ | segSet _ _ _ => exact withSeg_refused nextOrFatal_ne_refused h
  | segCopy _ _ _ => exact withSeg_refused (fun r => by split <;> simp) h
  | segSize _ => exact withSeg_refused (by simp) h
  | _ => exact ⟨_, rfl, withDrive_refused (by simp) h⟩

/-- A next state is the refusal of a missing drive, or it keeps the mark of the run. -/
theorem exec_next_mark {i : Instr} {s t : State} (h : exec i s = .next t) :
    s.fault = none ∧ ((∃ d, i.drive? = some d ∧ s.drives.length ≤ d.toNat ∧ t = s.markRefused) ∨
      ((∀ d, i.drive? = some d → d.toNat < s.drives.length) ∧ t.refused = s.refused)) := by
  by_cases hm : ∃ d, i.drive? = some d ∧ s.drives.length ≤ d.toNat
  · obtain ⟨d, hi, hd⟩ := hm
    rw [exec_of_missing hi hd] at h
    obtain ⟨hf, rfl⟩ := refuse_next h
    exact ⟨hf, .inl ⟨d, hi, hd, rfl⟩⟩
  · have hall : ∀ d, i.drive? = some d → d.toNat < s.drives.length := fun d hi =>
      Nat.lt_of_not_le fun hd => hm ⟨d, hi, hd⟩
    suffices H : s.fault = none ∧ t.refused = s.refused from ⟨H.1, .inr ⟨hall, H.2⟩⟩
    have hs : ∀ {q : SegRef}, i.drive? = q.drive? → q.ok s.drives.length ≠ false := fun hq hc => by
      obtain ⟨d, hd, hn⟩ := segRef_ok_eq_false.mp hc
      exact hm ⟨d, hq ▸ hd, hn⟩
    cases i with
    | busRd a =>
      obtain ⟨hf, ⟨_, _, _, _, _, rfl, _⟩ | ⟨_, _, _, rfl, _⟩ | ⟨_, _, rfl⟩ | ⟨_, rfl⟩⟩ := execBusRd_next h <;> exact ⟨hf, rfl⟩
    | busWr a v =>
      obtain ⟨hf, ⟨_, _, _, _, _, _, rfl⟩ | ⟨_, _, _, _, rfl⟩ | ⟨_, _, rfl⟩ | ⟨_, rfl⟩ | ⟨_, rfl⟩⟩ := execBusWr_next h <;>
        exact ⟨hf, by simp⟩
    | mmGet => obtain ⟨hf, rfl⟩ := execMmGet_next h; exact ⟨hf, rfl⟩
    | reset => obtain ⟨hf, rfl⟩ := execReset_next h; exact ⟨hf, rfl⟩
    | segGet q k =>
      obtain ⟨hf, ⟨hq, -⟩ | ⟨-, ⟨_, _, _, _, rfl⟩ | ⟨_, rfl⟩⟩⟩ := execSegGet_next h
      · exact absurd hq (hs rfl)
      · exact ⟨hf, rfl⟩
      · exact ⟨hf, rfl⟩
    | segSet q k v =>
      obtain ⟨hf, ⟨hq, -⟩ | ⟨-, ⟨_, _, _, _, rfl⟩ | ⟨_, rfl⟩⟩⟩ := execSegSet_next h
      · exact absurd hq (hs rfl)
      · exact ⟨hf, by simp⟩
      · exact ⟨hf, rfl⟩
    | segCopy q k bs =>
      obtain ⟨hf, ⟨hq, -⟩ | ⟨-, ⟨_, rfl⟩ | ⟨_, _, ⟨_, _, rfl⟩ | ⟨_, rfl⟩⟩⟩⟩ := execSegCopy_next h
      · exact absurd hq (hs rfl)
      · exact ⟨hf, rfl⟩
      · exact ⟨hf, by simp⟩
      · exact ⟨hf, rfl⟩
    | segSize q =>
      obtain ⟨hf, ⟨hq, -⟩ | ⟨-, rfl⟩⟩ := execSegSize_next h
      · exact absurd hq (hs rfl)
      · exact ⟨hf, rfl⟩
    | segAttach b d n =>
      obtain ⟨hf, ⟨hd, -⟩ | ⟨_, _, rfl⟩⟩ := execSegAttach_next h
      · exact absurd ⟨d, rfl, hd⟩ hm
      · exact ⟨hf, rfl⟩
    | drvStepPhase d _ | drvShift d _ | drvStep d _ | drvSetFlags d _ | drvSetImagetype d _ =>
      obtain ⟨hf, ⟨hd, -⟩ | ⟨_, _, rfl⟩⟩ := updateDrive_next h
      · exact absurd ⟨d, rfl, hd⟩ hm
      · exact ⟨hf, rfl⟩
    | drvPosition d | drvGetHead d | drvGetFlags d | drvGetImagetype d =>
      obtain ⟨hf, ⟨hd, -⟩ | ⟨_, _, rfl⟩⟩ := reportDrive_next h
      · exact absurd ⟨d, rfl, hd⟩ hm
      · exact ⟨hf, rfl⟩

end Sys2Proof.Machine
end

