-- ==== Sys2Proof/Tests/Slice0.lean ====
section
/-! SUPPORT. The model's own tests: well-formedness, decoding, one step of each transaction, and a witness for the hypotheses
of each statement. Expected values are those of spec/95_test_vectors.md, whose row each test names, unless a test says otherwise. -/

namespace Sys2Proof.Tests

open Sys2Proof.Machine

/-! ## Small states -/

/-- The state after RESET with MemMode `m`, and L1-1's two cells. -/
def banked (m : Byte) : State :=
  { State.reset with memMode := m, main := (Segment.fresh 0x10000 0).write 0x123 3, aux := (Segment.fresh 0x10000 1).write 0x123 2 }

/-- Drive 0 at a head position, everything else as after RESET. -/
def headAt (p t k : Int) : State :=
  { State.reset with drives := [{ Drive.initial with phase := p, trackPos := t, sectorPos := k }, Drive.initial] }

/-- The same with Locked set. -/
def lockedAt (p t k : Int) : State :=
  { State.reset with drives := [{ Drive.initial with phase := p, trackPos := t, sectorPos := k, locked := true }, Drive.initial] }

/-- Drive 0 with a full-size Data of creation 3, at a head position. -/
def readyAt (t k : Int) : State :=
  { State.reset with
    drives := [{ Drive.initial with trackPos := t, sectorPos := k, data := some (Segment.fresh 234640 3) }, Drive.initial]
    draws := 4 }

/-- A fault taken by SEG_GET of Main at -1 (VA4). -/
def faulted : State := { State.reset with fault := some { code := 0x01, sel := 0, drv := 0, addr := -1 } }

/-- One word presented, run by one step. -/
def run (w : Nat) (s : State) : Host.Outcome State Fault Refusal := step (s.withFetchWord 64 w)

def nextOf : Host.Outcome State Fault Refusal → Option State
  | .next t => some t
  | _ => none

def refusalOf : Host.Outcome State Fault Refusal → Option Refusal
  | .refused r => some r
  | _ => none

def stopOf : Host.Outcome State Fault Refusal → Option Fault
  | .fault r => some r
  | _ => none

def respOf (o : Host.Outcome State Fault Refusal) : Option Response := (nextOf o).bind State.resp

def modeOf (o : Host.Outcome State Fault Refusal) : Option Byte := (nextOf o).map State.memMode

def faultOf (o : Host.Outcome State Fault Refusal) : Option FaultRecord := (nextOf o).bind State.fault

def headOf (o : Host.Outcome State Fault Refusal) : Option (Int × Int × Int) :=
  (nextOf o).bind fun t => (t.drives[0]?).map fun D => (D.phase, D.trackPos, D.sectorPos)

/-! ## WellFormed: a term that each check refuses, and the ends of each range -/

theorem test_wf_drive : (Instr.drvPosition 2).wf 2 = false ∧ (Instr.drvPosition 1).wf 2 = true := by decide
theorem test_wf_segment_drive :
    (Instr.segSize (.buf .image 2)).wf 2 = false ∧ (Instr.segSize (.buf .data 1)).wf 2 = true := by decide
theorem test_wf_imm_low :
    (Instr.drvStep 0 (-8388609)).wf 2 = false ∧ (Instr.drvStep 0 (-8388608)).wf 2 = true := by decide
theorem test_wf_imm_high :
    (Instr.segGet .main 8388608).wf 2 = false ∧ (Instr.segGet .main 8388607).wf 2 = true := by decide
theorem test_wf_attach_length :
    (Instr.segAttach .data 0 8388608).wf 2 = false ∧ (Instr.segAttach .data 0 8388607).wf 2 = true := by decide
theorem test_wf_payload_length (bytes : List Byte) (h : bytes.length = 65536) : (Instr.segCopy .main 0 bytes).wf 2 = false := by
  simp [Instr.wf, h]

/-! ## Decoding: words of the spec's encodings -/

theorem test_decode_busRd : decode ⟨0x00000000C0550001, []⟩ = .ok (.busRd 0xC055) := by decide -- VE1
theorem test_decode_busWr : decode ⟨0x000000AA03000002, []⟩ = .ok (.busWr 0x0300 0xAA) := by decide -- VE2
theorem test_decode_mmGet : decode ⟨0x0000000000000003, []⟩ = .ok .mmGet := by decide -- VE8
theorem test_decode_segGet : decode ⟨0xFFFFFF0000000010, []⟩ = .ok (.segGet .main (-1)) := by decide -- VA4
theorem test_decode_segSet : decode ⟨0x0001230200000111, []⟩ = .ok (.segSet .aux 0x123 0x02) := by decide -- VA2
theorem test_decode_segCopy :
    decode ⟨0x00FFFE0000020012, [1, 2]⟩ = .ok (.segCopy .main 0xFFFE [1, 2]) := by decide -- VA8
theorem test_decode_segSize : decode ⟨0x0000000000001313, []⟩ = .ok (.segSize (.buf .data 1)) := by decide -- VA15
theorem test_decode_segAttach : decode ⟨0x001A300000001314, []⟩ = .ok (.segAttach .data 1 6704) := by decide -- VA16
theorem test_decode_drvStepPhase : decode ⟨0x00000000C0E31020, []⟩ = .ok (.drvStepPhase 1 0xC0E3) := by decide -- VD25
theorem test_decode_drvShift : decode ⟨0xFFFFFF0000001021, []⟩ = .ok (.drvShift 1 (-1)) := by decide -- VE3
theorem test_decode_drvStep : decode ⟨0x8000000000000022, []⟩ = .ok (.drvStep 0 (-8388608)) := by decide -- VD6
theorem test_decode_drvPosition : decode ⟨0x0000000000000023, []⟩ = .ok (.drvPosition 0) := by decide -- VD26
theorem test_decode_drvGetHead : decode ⟨0x0000000000001024, []⟩ = .ok (.drvGetHead 1) := by decide -- VD40
theorem test_decode_drvGetFlags : decode ⟨0x0000000000000025, []⟩ = .ok (.drvGetFlags 0) := by decide -- VD33
theorem test_decode_drvSetFlags : decode ⟨0x000000F200000026, []⟩ = .ok (.drvSetFlags 0 0xF2) := by decide -- VD35
theorem test_decode_drvGetImagetype : decode ⟨0x0000000000001027, []⟩ = .ok (.drvGetImagetype 1) := by decide -- VD36
theorem test_decode_drvSetImagetype : decode ⟨0x000000FE00000028, []⟩ = .ok (.drvSetImagetype 0 .nibble) := by decide -- VD39
theorem test_decode_reset : decode ⟨0x00000000000000F0, []⟩ = .ok .reset := by decide -- VE7

theorem test_ignored_fields : decode ⟨0xFFFFFFFF00000701, []⟩ = .ok (.busRd 0x0000) := by decide -- VE6
theorem test_reserved_op : decode ⟨0x0000000000000004, []⟩ = .error .reservedOp := by decide -- VE4
theorem test_reserved_bit : decode ⟨0x0000000000000801, []⟩ = .error .reservedBit := by decide -- VE5
theorem test_reserved_sel : decode ⟨0x0000000000000510, []⟩ = .error .reservedSel := by decide -- VA19
theorem test_attach_sel : decode ⟨0x0000100000000014, []⟩ = .error .attachSel := by decide -- VA17
theorem test_attach_length : decode ⟨0xFFFFFF0000000314, []⟩ = .error .attachLength := by decide -- VA18
theorem test_reserved_imagetype : decode ⟨0x0000000300000028, []⟩ = .error .reservedImageType := by decide -- VD38
theorem test_short_payload : decode ⟨0x0000000000030012, [1, 2]⟩ = .error .shortPayload := by decide -- VE9
-- No row of the spec: "No other transaction has a payload" (30_encoding.md R76; log 4).
theorem test_stray_payload : decode ⟨0x0000000000000003, [1]⟩ = .error .strayPayload := by decide
theorem test_missing_drive :
    nextOf (run 0x0000000000002310 State.reset) = some { State.reset with refused := true } := by decide -- VA20
theorem test_refused_op : nextOf (run 0x0000000000000004 State.reset) = some { State.reset with refused := true } := by decide -- VE4
-- 60_exceptions.md R153: the mark is kept by every transaction, RESET too.
theorem test_mark_kept :
    (nextOf (run 0x00000000000000F0 { State.reset with refused := true })).map State.refused = some true := by decide

/-! The table's numbering: a SEG_COPY of which the table gives one payload byte, and one of which it gives none. -/

theorem test_table_word_payload :
    decodeTableWord 72 0xD50000000000010312 = some (.segCopy (.buf .data 0) 0 [0xD5]) := by decide
theorem test_table_word_zeros :
    decodeTableWord 64 0x0000000000020312 = some (.segCopy (.buf .data 0) 0 [0, 0]) := by decide

/-! The encoder, on 30_encoding.md R91's words. -/

theorem test_encode_segCopy :
    encode (.segCopy (.buf .data 0) 0 [0xD5, 0xAA]) = ⟨0x0000000000020312, [0xD5, 0xAA]⟩ := by decide
theorem test_encode_drvShift : encode (.drvShift 1 (-1)) = ⟨0xFFFFFF0000001021, []⟩ := by decide

/-! The assembler text, on 30_encoding.md R91's lines. -/

theorem test_asm_rd : (Instr.busRd 0xC055).asm = "rd $C055" := by decide
theorem test_asm_wr : (Instr.busWr 0x0300 0xAA).asm = "wr $0300, #$AA" := by decide
theorem test_asm_phase : (Instr.drvStepPhase 0 0xC0E1).asm = "phase d0, $C0E1" := by decide
theorem test_asm_shift : (Instr.drvShift 1 (-1)).asm = "shift d1, #-1" := by decide
theorem test_asm_copy :
    (Instr.segCopy (.buf .data 0) 0 [0xD5, 0xAA]).asm = "seg.copy data.d0, #0, [$D5, $AA]" := by decide

/-! ## One step of each transaction -/

theorem test_busRd_aux : respOf (run 0x0000000001230001 (banked 0x01)) = some (.byte 0x02) := by decide -- L1-2
theorem test_busRd_unset_trap :
    respOf (run 0x00000000C0560001 (banked 0x1F)) = some (.byte 0x00) ∧
    modeOf (run 0x00000000C0560001 (banked 0x1F)) = some 0x0F := by decide -- VC12
theorem test_busWr_aux :
    (nextOf (run 0x0000005501230002 (banked 0x02))).map (fun t => (t.aux.cell? 0x123, t.main.cell? 0x123))
      = some (some 0x55, some 0x03) := by decide -- L1-7
theorem test_busWr_unset_trap : modeOf (run 0x00000000C0000002 (banked 0xFF)) = some 0xFB := by decide -- VC8
theorem test_mmGet : respOf (run 0x0000000000000003 (banked 0x18)) = some (.byte 0x18) := by decide -- VC21
theorem test_segGet : respOf (run 0x0001230000000010 (banked 0x00)) = some (.byte 0x03) := by decide -- VA1
theorem test_segGet_fatal :
    faultOf (run 0xFFFFFF0000000010 State.reset) = some { code := 0x01, sel := 0, drv := 0, addr := -1 } := by decide -- VA4
theorem test_segSet_rom :
    (nextOf (run 0x0000004C00000211 State.reset)).map (fun t => t.rom.cell? 0) = some (some 0x4C) := by decide -- VA21
theorem test_segSet_fatal :
    faultOf (run 0x0100000000000011 State.reset) = some { code := 0x02, sel := 0, drv := 0, addr := 0x10000 } := by
  decide -- VA5
theorem test_segCopy_fits :
    (nextOf (exec (.segCopy .main 0xFFFE [1, 2]) State.reset)).map (fun t => (t.resp, t.main.cell? 0xFFFE, t.main.cell? 0xFFFF))
      = some (some (.copyOk 2), some 1, some 2) := by decide -- VA8
theorem test_segCopy_error :
    (nextOf (exec (.segCopy .main 0xFFFF [1, 2]) State.reset)).map (fun t => (t.resp, t.main.cells, t.fault))
      = some (some (.copyErr 0x10), [], none) := by decide -- VA9
theorem test_segSize_rom : respOf (run 0x0000000000000213 State.reset) = some (.int 16384) := by decide -- VA14
theorem test_segSize_absent : respOf (run 0x0000000000001313 State.reset) = some (.int 0) := by decide -- VA15
theorem test_segAttach :
    (nextOf (run 0x001A300000001314 State.reset)).map (fun t => (t.segLen (.buf .data 1), t.segLen (.buf .data 0)))
      = some (6704, 0) := by decide -- VA16
theorem test_drvStepPhase : headOf (run 0x0000000000030020 (headAt 1 10 50)) = some (2, 11, 0) := by decide -- VD21
theorem test_drvStepPhase_clamp : headOf (run 0x00000000C0E50020 (headAt 4 0 3)) = some (3, 0, 0) := by decide -- VD22
theorem test_drvShift_reset : headOf (run 0x00000A0000000021 (headAt 0 9 6700)) = some (0, 9, 0) := by decide -- VD10
theorem test_drvShift_locked : headOf (run 0x0000010000000021 (lockedAt 0 0 6703)) = some (0, 0, 6703) := by decide -- VD16
theorem test_drvStep_clamp : headOf (run 0x0000050000000022 (headAt 0 69 100)) = some (0, 70, 0) := by decide -- VD4
theorem test_drvStep_zero : headOf (run 0x0000000000000022 (headAt 0 10 500)) = some (0, 10, 0) := by decide -- VD2
theorem test_drvPosition : respOf (run 0x0000000000000023 (readyAt 5 17)) = some (.int 13425) := by decide -- VD29
theorem test_drvPosition_absent : respOf (run 0x0000000000000023 (headAt 0 5 17)) = some (.int 0) := by decide -- VD26
-- 42_drive.md R135 with the state of VD18.
theorem test_drvGetHead : respOf (run 0x0000000000000024 (headAt 1 10 50)) = some (.head 1 10 50) := by decide
-- 30_encoding.md R83: Locked is bit 3.
theorem test_drvGetFlags : respOf (run 0x0000000000000025 (lockedAt 0 0 0)) = some (.byte 0x08) := by decide
theorem test_drvSetFlags :
    (nextOf (run 0x000000F200000026 State.reset)).bind (fun t => (t.drives[0]?).map fun D =>
      (D.online, D.mode, D.writeProtect, D.locked)) = some (false, .write, false, false) := by decide -- VD35
theorem test_drvGetImagetype : respOf (run 0x0000000000001027 State.reset) = some (.byte 0x00) := by decide -- VD36
theorem test_drvSetImagetype :
    (nextOf (run 0x0000000200001028 State.reset)).map (fun t => t.drives.map Drive.imageType) = some [.dos33, .nibble] := by
  decide -- VD37
theorem test_reset_mode :
    modeOf (run 0x00000000000000F0 { State.reset with cfg := { defaultConfig with memModeReset := 0x05 } }) = some 0x05 := by
  decide -- VF6
theorem test_reset_faulted :
    stopOf (run 0x00000000000000F0 faulted) = some (.halted { code := 0x01, sel := 0, drv := 0, addr := -1 }) := by
  decide -- VF3

/-! ## Witnesses: for each statement of Obligations.lean that has hypotheses, states and operands that meet them together -/

/-- A drive-0 state with a word presented, that meets the invariants and is not the state after RESET. -/
def presented (w : Nat) : State := (readyAt 5 17).withFetchWord 64 w

theorem wit_presented_inv : (presented 0x0000000001230001).Inv := by decide
theorem wit_presented_fresh : (presented 0x0000000001230001).FreshDraws := by decide
theorem wit_readyAt_inv : (readyAt 70 6703).Inv ∧ (readyAt 0 0).Inv := by decide

/-- The hypothesis `exec i s = .next t` met by the state that is there. -/
theorem next_of_isSome {o : Host.Outcome State Fault Refusal} (h : (nextOf o).isSome = true) : ∃ t, o = .next t := by
  cases o with
  | next t => exact ⟨t, rfl⟩
  | fault r => simp [nextOf] at h
  | refused r => simp [nextOf] at h

-- DecodeOfEncodeIsTheTransaction: at both ends of IMM24 and at an empty and a full payload.
theorem wit_decode_of_encode :
    (Instr.segCopy (.buf .image 1) (-8388608) []).wf 2 = true ∧ (Instr.segSet .rom 8388607 0xFF).wf 2 = true := by decide
theorem wit_decode_of_encode_full (bytes : List Byte) (h : bytes.length = 65535) :
    (Instr.segCopy .main 0 bytes).wf 2 = true := by simp [Instr.wf, SegRef.ok, immOk, h]
-- AcceptedWordsReencode: a word with ignored fields set.
theorem wit_accepted : decode ⟨0xFFFFFFFF00000701, []⟩ = .ok (.busRd 0x0000) := by decide
-- UnreadFieldsAreIgnored, clause by clause.
theorem wit_unread_fields :
    (unpack 0xFFFFFFFF00000701).op = (unpack 0x0000000000000001).op ∧
    (unpack 0xFFFFFFFF00000701).rsv = (unpack 0x0000000000000001).rsv ∧ opOfCode (unpack 0xFFFFFFFF00000701).op = some .busRd ∧
    ∀ n ∈ Op.busRd.fieldsRead, (unpack 0xFFFFFFFF00000701).value n = (unpack 0x0000000000000001).value n := by decide
theorem wit_unread_drv :
    (unpack 0x0001230000000110).op = (unpack 0x000123000000F110).op ∧ opOfCode (unpack 0x0001230000000110).op = some .segGet ∧
    (unpack 0x0001230000000110).rsv = (unpack 0x000123000000F110).rsv ∧ (unpack 0x0001230000000110).sel.toNat ≤ 2 ∧
    (∀ n ∈ Op.segGet.fieldsRead, n ≠ .drv → (unpack 0x0001230000000110).value n = (unpack 0x000123000000F110).value n) ∧
    (unpack 0x0001230000000210).sel.toNat ≤ 2 ∧ (unpack 0x0001230000000010).sel.toNat ≤ 2 ∧
    (unpack 0x0001230000000110).value .drv ≠ (unpack 0x000123000000F110).value .drv := by decide
theorem wit_unread_rsv : (unpack 0x0000000000000801).rsv = 1 := by decide
theorem wit_unread_flags : (0xF2 : Byte).toNat % 16 = (0x02 : Byte).toNat % 16 := by decide
theorem wit_unread_imagetype :
    (unpack 0x000000FE00000028).op = 0x28 ∧ (unpack 0x0000000200000028).op = 0x28 ∧
    (unpack 0x000000FE00000028).rsv = (unpack 0x0000000200000028).rsv ∧
    (unpack 0x000000FE00000028).drv = (unpack 0x0000000200000028).drv ∧
    (unpack 0x000000FE00000028).data8.toNat % 4 = (unpack 0x0000000200000028).data8.toNat % 4 := by decide
-- ReservedEncodingsAreRefused: the table is well-formed, and a word for each clause, at the ends of its range.
theorem wit_table_ok : tableOk (presented 0).cfg.switchTable = true := by decide
theorem wit_reserved_op :
    reservedTxn 2 ⟨0x00, []⟩ ∧ reservedTxn 2 ⟨0x04, []⟩ ∧ reservedTxn 2 ⟨0x0F, []⟩ ∧ reservedTxn 2 ⟨0x15, []⟩ ∧
    reservedTxn 2 ⟨0x1F, []⟩ ∧ reservedTxn 2 ⟨0x29, []⟩ ∧ reservedTxn 2 ⟨0xEF, []⟩ ∧ reservedTxn 2 ⟨0xF1, []⟩ := by
  refine ⟨?_, ?_, ?_, ?_, ?_, ?_, ?_, ?_⟩ <;> (unfold reservedTxn; decide)
theorem wit_reserved_bit : reservedTxn 2 ⟨0x801, []⟩ := by unfold reservedTxn; decide
theorem wit_reserved_sel : reservedTxn 2 ⟨0x510, []⟩ ∧ reservedTxn 2 ⟨0x713, []⟩ := by unfold reservedTxn; decide
theorem wit_reserved_attach_sel : reservedTxn 2 ⟨0x014, []⟩ ∧ reservedTxn 2 ⟨0x214, []⟩ := by unfold reservedTxn; decide
theorem wit_reserved_drive :
    reservedTxn 2 ⟨0x2023, []⟩ ∧ reservedTxn 2 ⟨0xF023, []⟩ ∧ reservedTxn 2 ⟨0x2310, []⟩ ∧ reservedTxn 2 ⟨0x2413, []⟩ := by
  refine ⟨?_, ?_, ?_, ?_⟩ <;> (unfold reservedTxn; decide)
theorem wit_reserved_attach_length :
    reservedTxn 2 ⟨0xFFFFFF0000000314, []⟩ ∧ reservedTxn 2 ⟨0x8000000000000414, []⟩ := by unfold reservedTxn; decide
theorem wit_reserved_imagetype : reservedTxn 2 ⟨0x0000000300000028, []⟩ ∧ reservedTxn 2 ⟨0x000000FF00000028, []⟩ := by
  unfold reservedTxn; decide
theorem wit_reserved_payload : reservedTxn 2 ⟨0x0000000000010012, []⟩ := by unfold reservedTxn; decide
/-- Words beside those ends are not reserved. -/
theorem test_not_reserved :
    ¬ reservedTxn 2 ⟨0x03, []⟩ ∧ ¬ reservedTxn 2 ⟨0x14 + 0x400, []⟩ ∧ ¬ reservedTxn 2 ⟨0x1028, []⟩ ∧ ¬ reservedTxn 2 ⟨0x2210, []⟩ := by
  refine ⟨?_, ?_, ?_, ?_⟩ <;> (unfold reservedTxn; decide)
-- ReservedEncodingsAreRefused, OnlyReservedEncodingsAreRefused: a running state and a faulted one, a reserved word, a stray
-- payload, a missing drive, and a run marked before.
theorem wit_refused :
    (presented 0x04).fault = none ∧ (nextOf (step (presented 0x04))).map State.refused = some true ∧
    (nextOf (step { readyAt 0 0 with pending := [⟨0x03, [1]⟩] })).map State.refused = some true ∧
    (nextOf (step { presented 0x03 with refused := true })).map State.refused = some true ∧
    (nextOf (step (presented 0x03))).map State.refused = some false := by decide
theorem wit_refused_faulted :
    refusalOf (run 0x04 faulted) = some (.reservedEncoding .reservedOp) ∧
    refusalOf (run 0x2023 faulted) = some (.driveOutOfRange 2) := by decide
-- StepRunsTheDecodedTransaction.
theorem wit_step_runs :
    (presented 0x0000000001230001).pending = [⟨0x0000000001230001, []⟩] ∧
    decode ⟨0x0000000001230001, []⟩ = .ok (.busRd 0x0123) ∧
    decodeTableWord 64 0x0000000001230001 = some (.busRd 0x0123) ∧ (readyAt 5 17).pending = [] ∧ (readyAt 5 17).fault = none := by
  decide
-- MalformedTableRefusesEveryStep: each way a row can be malformed, and rows beside them that are not.
theorem wit_malformed :
    refusalOf (step { readyAt 0 0 with cfg := { defaultConfig with switchTable := [⟨0xBFFF, 0x01, 0x00⟩] } }) = some .malformedSwitchTable ∧
    refusalOf (step { readyAt 0 0 with cfg := { defaultConfig with switchTable := [⟨0xBFFF, 0x00, 0x03⟩] } }) = some .malformedSwitchTable ∧
    refusalOf (step { readyAt 0 0 with cfg := { defaultConfig with switchTable := [⟨0xC000, 0x20, 0x00⟩] } }) = some .malformedSwitchTable ∧
    refusalOf (step { readyAt 0 0 with cfg := { defaultConfig with switchTable := [⟨0xC000, 0x00, 0x20⟩] } }) = some .malformedSwitchTable ∧
    refusalOf (step { readyAt 0 0 with cfg := { defaultConfig with switchTable := [⟨0xC000, 0x1F, 0x1F⟩, ⟨0xBFFF, 0x1C, 0x00⟩] } }) = none := by
  decide
-- WellFormedTransactionsAnswer, and every statement that asks for no fault and a drive or a segment that exists.
theorem wit_no_fault :
    (readyAt 5 17).fault = none ∧ (Instr.drvShift 1 (-1)).wf (readyAt 5 17).drives.length = true ∧
    (SegRef.buf .data 0).ok (readyAt 5 17).drives.length = true ∧ (readyAt 5 17).drives[(1 : DriveIx).toNat]? = some Drive.initial := by
  decide
-- RamAccessesFollowTheAuxEnables: at 0 and 0xBFFF, and just outside each display page.
theorem wit_ram :
    (banked 0x17).fault = none ∧ (banked 0x17).main.len = 0x10000 ∧ (banked 0x17).aux.len = 0x10000 ∧
    ∀ a ∈ ([0x0000, 0x03FF, 0x0800, 0x1FFF, 0x4000, 0xBFFF] : List Addr),
      a.toNat < 0xC000 ∧ ¬ ((0x0400 ≤ a.toNat ∧ a.toNat ≤ 0x07FF) ∨
        ((banked 0x17).memMode.getLsbD 4 = true ∧ 0x2000 ≤ a.toNat ∧ a.toNat ≤ 0x3FFF)) := by
  refine ⟨rfl, rfl, rfl, fun a ha => ?_⟩
  simp only [List.mem_cons, List.not_mem_nil, or_false] at ha
  rcases ha with rfl | rfl | rfl | rfl | rfl | rfl <;> decide
-- DisplayPagesFollowPageTwo: the ends of both pages.
theorem wit_display :
    (banked 0x1C).cfg.override80Store = true ∧ (banked 0x1C).memMode.getLsbD 2 = true ∧
    ∀ a ∈ ([0x0400, 0x07FF, 0x2000, 0x3FFF] : List Addr), (0x0400 ≤ a.toNat ∧ a.toNat ≤ 0x07FF) ∨
      ((banked 0x1C).memMode.getLsbD 4 = true ∧ 0x2000 ≤ a.toNat ∧ a.toNat ≤ 0x3FFF) := by
  refine ⟨rfl, rfl, fun a ha => ?_⟩
  simp only [List.mem_cons, List.not_mem_nil, or_false] at ha
  rcases ha with rfl | rfl | rfl | rfl <;> decide
-- TrapsRunInsteadOfTheAccess, clause by clause; the probe of a write is no row of the default table.
theorem wit_traps :
    resolveRead State.reset.cfg 0xC013 0x00 = .trap (.probe .readAux) ∧
    resolveRead State.reset.cfg 0xC057 0x00 = .trap (.set .hires) ∧
    resolveRead State.reset.cfg 0xC056 0x1F = .trap (.unset .hires) ∧
    resolveWrite { defaultConfig with switchTable := [⟨0xFFFF, 0x00, 0x1D⟩] } 0xFFFF 0x00 = .trap (.probe .slotC3ROM) ∧
    resolveWrite State.reset.cfg 0xC00B 0x00 = .trap (.set .slotC3ROM) ∧
    resolveWrite State.reset.cfg 0xC000 0xFF = .trap (.unset .store80) := by decide
-- ModeFlagsAreIndependent, MemModeChangesOnlyByTrapsAndReset: the accesses of VC8 and VC12 change MemMode.
theorem wit_mode_changes :
    (∃ t, exec (.busRd 0xC056) (banked 0x1F) = .next t ∧ t.memMode ≠ (banked 0x1F).memMode) ∧
    (∃ t, exec (.busWr 0xC000 0x00) (banked 0xFF) = .next t ∧ t.memMode ≠ (banked 0xFF).memMode) :=
  ⟨⟨_, rfl, by decide⟩, ⟨_, rfl, by decide⟩⟩
theorem wit_mode_set : ∃ t, exec (.busWr 0xC001 0xFF) (banked 0x00) = .next t ∧
    resolveWrite (banked 0x00).cfg 0xC001 (banked 0x00).memMode = .trap (.set .store80) := ⟨_, rfl, by decide⟩
-- UntrappedIoAndDiscardedWrites: both ends of the I/O page and what lies above it.
theorem wit_io :
    readTrap (banked 0x00).cfg.switchTable 0xC000 = none ∧ readTrap (banked 0x00).cfg.switchTable 0xC0FF = none ∧
    writeTrap (banked 0x00).cfg.switchTable 0xC013 = none ∧ writeTrap (banked 0x00).cfg.switchTable 0xC0FF = none ∧
    writeTrap (banked 0x00).cfg.switchTable 0xC100 = none ∧ writeTrap (banked 0x00).cfg.switchTable 0xFFFF = none := by decide
-- RomWindowReads: the ends of each window.
theorem wit_rom_window :
    (banked 0x40).rom.len = 0x4000 ∧
    ∀ a ∈ ([0xC100, 0xC2FF, 0xC300, 0xC3FF, 0xC400, 0xC7FF, 0xC800, 0xCFFF, 0xD000, 0xFFFF] : List Addr),
      0xC100 ≤ a.toNat ∧ readTrap (banked 0x40).cfg.switchTable a = none := by
  refine ⟨rfl, fun a ha => ?_⟩
  simp only [List.mem_cons, List.not_mem_nil, or_false] at ha
  rcases ha with rfl | rfl | rfl | rfl | rfl | rfl | rfl | rfl | rfl | rfl <;> decide
-- BusAccessesNeverFault, SegSizeReturnsTheLength, TwoIndependentAxes, FatalFaultsHaveTwoCauses, EveryStepKeepsTheInvariants:
-- `wit_readyAt_inv` and `wit_presented_inv`, with a next state.
theorem wit_inv_steps :
    (∃ t, exec (.segGet .main (-1)) (readyAt 70 6703) = .next t) ∧ (∃ t, step (presented 0x0000000000000025) = .next t) ∧
    (∃ t, exec (.segGet .main 0xFFFF) (readyAt 70 6703) = .next t) :=
  ⟨next_of_isSome (by decide), next_of_isSome (by decide), ⟨_, rfl⟩⟩
-- PageTwoAndHiresAreGated, EightyStoreClearHidesThePair: MemMode 0x18 and 0x00, and the Set traps of both flags.
theorem wit_gate :
    (0x18 : Byte).getLsbD 2 = false ∧ (0x00 : Byte).getLsbD 2 = false ∧
    (∀ k < 8, k ≠ 3 → k ≠ 4 → (0x18 : Byte).getLsbD k = (0x00 : Byte).getLsbD k) ∧
    resolveWrite (banked 0x00).cfg 0xC055 0x00 = .trap (.set .page2) ∧
    resolveWrite (banked 0x00).cfg 0xC057 0x00 = .trap (.set .hires) := by decide
theorem wit_hidden_pair :
    (∃ t, exec (.busRd 0x0400) (banked 0x18) = .next t) ∧ (∃ t, exec (.busWr 0x2000 0x99) (banked 0x18) = .next t) :=
  ⟨⟨_, rfl⟩, ⟨_, rfl⟩⟩
-- DifferentEnablesHideTheWrite: L1-7's write between two reads, MemWriteAux set and MemReadAux clear.
theorem wit_different_enables :
    ∃ u t, (banked 0x02).memMode.getLsbD 0 ≠ (banked 0x02).memMode.getLsbD 1 ∧
      overrides (banked 0x02).cfg 0x123 (banked 0x02).memMode = false ∧ exec (.busRd 0x123) (banked 0x02) = .next u ∧
      u.resp = some (.byte 0x03) ∧ exec (.busWr 0x123 0x55) (banked 0x02) = .next t ∧ t.fault = none :=
  ⟨_, _, by decide, by decide, rfl, by decide, rfl, by decide⟩
-- BusAccessesAreIdempotent: a read trap that changes MemMode, and a write to RAM.
theorem wit_idempotent :
    (∃ t, exec (.busRd 0xC055) (banked 0x00) = .next t ∧ t.fault = none ∧ t.draws = (banked 0x00).draws) ∧
    (∃ t, exec (.busWr 0x123 0x55) (banked 0x00) = .next t ∧ t.fault = none) :=
  ⟨⟨_, rfl, by decide, by decide⟩, ⟨_, rfl, by decide⟩⟩
-- PortsShareTheCells.
theorem wit_ports :
    (∃ t, exec (.segSet .aux (0x123 : Addr).toNat 0x55) (banked 0x01) = .next t ∧ t.fault = none ∧
      resolveRead (banked 0x01).cfg 0x123 (banked 0x01).memMode = .ram .aux (0x123 : Addr).toNat) ∧
    (∃ t, exec (.busWr 0x123 0x55) (banked 0x02) = .next t ∧ t.fault = none ∧
      resolveWrite (banked 0x02).cfg 0x123 (banked 0x02).memMode = .ram .aux (0x123 : Addr).toNat) :=
  ⟨⟨_, rfl, by decide, by decide⟩, ⟨_, rfl, by decide, by decide⟩⟩
-- DefaultTableTraps: an address beside a row.
theorem wit_no_row :
    (0xC008 : Addr) ∉ ([0xC000, 0xC001, 0xC002, 0xC003, 0xC004, 0xC005, 0xC006, 0xC007, 0xC00A, 0xC00B, 0xC013, 0xC014,
        0xC015, 0xC017, 0xC018, 0xC01C, 0xC01D, 0xC054, 0xC055, 0xC056, 0xC057] : List Addr) := by decide
-- SegGetReadsOrFaults, SegSetWritesOrFaults, SegmentRoundTrip, SegCopyWritesAllOrNothing: both ends of a segment, both sides.
theorem wit_segment_bounds :
    (∃ g, (readyAt 0 0).segOf (.buf .data 0) = some g ∧ (0 : Int) < g.len ∧ (234639 : Int) < g.len) ∧
    ((readyAt 0 0).segLen (.buf .data 0) : Int) ≤ 234640 ∧ (0 : Int) + ([1, 2] : List Byte).length ≤ (readyAt 0 0).segLen .main ∧
    (0xFFFE : Int) + ([1, 2] : List Byte).length ≤ (readyAt 0 0).segLen .main ∧
    ((readyAt 0 0).segLen .main : Int) < 0xFFFF + ([1, 2] : List Byte).length :=
  ⟨⟨_, rfl, by decide, by decide⟩, by decide, by decide, by decide, by decide⟩
-- AbsentBuffersHaveLengthZero.
theorem wit_absent : (readyAt 0 0).drives[(1 : DriveIx).toNat]? = some Drive.initial ∧ Drive.initial.buf .data = none ∧
    Drive.initial.buf .image = none := by decide
-- SegAttachCreatesTheBuffer, DrvStepClampsAndZeroes, DrvPositionIsTheLinearOffset, DriveReports, DriveSettings: `wit_no_fault`.
-- DrvShiftMovesOrResets, DefinedNoOps, LockedStopsShiftOnly: a drive with Locked clear, and one with it set.
theorem wit_locked :
    (∃ D, (lockedAt 0 9 6703).drives[(0 : DriveIx).toNat]? = some D ∧ D.locked = true ∧ 0 ≤ D.phase ∧ D.phase ≤ 4) ∧
    (∃ D, (lockedAt 4 9 6703).drives[(0 : DriveIx).toNat]? = some D ∧ D.locked = true ∧ 0 ≤ D.phase ∧ D.phase ≤ 4) ∧
    (∃ D, (headAt 0 9 6703).drives[(0 : DriveIx).toNat]? = some D ∧ D.locked = false) :=
  ⟨⟨_, rfl, by decide⟩, ⟨_, rfl, by decide⟩, ⟨_, rfl, by decide⟩⟩
-- LockedStopsShiftOnly, UnreadDriveFieldsDecideNothing: a transaction of each clause that answers a next state.
theorem wit_locked_step :
    Op.drvStep ∉ [Op.drvShift, .drvGetFlags, .drvSetFlags] ∧ touchesUnread (.drvStep 0 1) = false ∧
    ∃ t, exec (.drvStep 0 1) (lockedAt 2 10 9) = .next t := ⟨by decide, by decide, ⟨_, rfl⟩⟩
-- DrvStepPhaseActivates: a nibble for each phase, one for none, and both ends of Phase.
theorem wit_phases :
    (0xC0E1 : Addr).toNat % 16 = 2 * 1 - 1 ∧ (0xC0E3 : Addr).toNat % 16 = 2 * 2 - 1 ∧ (0xC0E5 : Addr).toNat % 16 = 2 * 3 - 1 ∧
    (0x0007 : Addr).toNat % 16 = 2 * 4 - 1 ∧ (0xC0E0 : Addr).toNat % 16 ∉ [1, 3, 5, 7] ∧ (0xC0EF : Addr).toNat % 16 ∉ [1, 3, 5, 7] ∧
    (headAt 0 0 0).drives[(0 : DriveIx).toNat]? = some { Drive.initial with phase := 0 } ∧
    (headAt 4 0 0).drives[(0 : DriveIx).toNat]? = some { Drive.initial with phase := 4 } ∧
    (0 : Int) ≤ ({ Drive.initial with phase := 0 } : Drive).phase ∧ ({ Drive.initial with phase := 4 } : Drive).phase ≤ 4 := by
  decide
-- AscendingPhasesSeek: at both ends of TrackPos.
theorem wit_seek :
    (∃ D, (headAt 1 0 50).drives[(0 : DriveIx).toNat]? = some D ∧ D.phase = (1 : Nat) ∧ 0 ≤ D.trackPos ∧ D.trackPos ≤ 70) ∧
    (∃ D, (headAt 4 70 50).drives[(0 : DriveIx).toNat]? = some D ∧ D.phase = (4 : Nat) ∧ 0 ≤ D.trackPos ∧ D.trackPos ≤ 70) :=
  ⟨⟨_, rfl, by decide⟩, ⟨_, rfl, by decide⟩⟩
-- ReadingAtThePosition: half-tracks 69 and 70 (VD30, VD31).
theorem wit_position :
    (∃ D g t, (readyAt 69 6703).drives[(0 : DriveIx).toNat]? = some D ∧ D.data = some g ∧ g.len = 234640 ∧ D.trackPos = 69 ∧
      D.sectorPos = 6703 ∧ exec (.drvPosition 0) (readyAt 69 6703) = .next t ∧ t.resp = some (.int 234639)) ∧
    (∃ D g t, (readyAt 70 0).drives[(0 : DriveIx).toNat]? = some D ∧ D.data = some g ∧ g.len = 234640 ∧ D.trackPos = 70 ∧
      D.sectorPos = 0 ∧ exec (.drvPosition 0) (readyAt 70 0) = .next t ∧ t.resp = some (.int 234640)) :=
  ⟨⟨_, _, _, rfl, rfl, by decide, by decide, by decide, rfl, by decide⟩,
   ⟨_, _, _, rfl, rfl, by decide, by decide, by decide, rfl, by decide⟩⟩
-- TwoIndependentAxes: each of the three transactions, from a drive and to one.
theorem wit_axes :
    (∃ t E, exec (.drvShift 0 1) (readyAt 70 6703) = .next t ∧ t.drives[(0 : DriveIx).toNat]? = some E) ∧
    (∃ t E, exec (.drvStep 0 1) (readyAt 70 6703) = .next t ∧ t.drives[(0 : DriveIx).toNat]? = some E) ∧
    (∃ t E, exec (.drvStepPhase 0 0xC0E3) (readyAt 70 6703) = .next t ∧ t.drives[(0 : DriveIx).toNat]? = some E) :=
  ⟨⟨_, _, rfl, rfl⟩, ⟨_, _, rfl, rfl⟩, ⟨_, _, rfl, rfl⟩⟩
-- FaultsArePrecise: VA4's fault.
theorem wit_precise : ∃ t, exec (.segGet .main (-1)) (readyAt 0 0) = .next t ∧ t.fault ≠ none := ⟨_, rfl, by decide⟩
-- FaultedStateHasNoStep: a faulted state with a transaction that is well-formed, and a drive that does not exist.
theorem wit_faulted :
    faulted.fault = some { code := 0x01, sel := 0, drv := 0, addr := -1 } ∧ Instr.reset.wf faulted.drives.length = true ∧
    faulted.drives.length ≤ (2 : DriveIx).toNat := by decide
-- ConfigurationNeverChanges, FreeValuesStayFresh: `wit_presented_fresh`, with a next state that draws.
theorem wit_draws : ∃ t, step (presented 0x0000100000000414) = .next t := next_of_isSome (by decide)
-- CanonicalSegmentsAreEqualData: the same two cells written in either order.
theorem wit_canonical :
    (((Segment.fresh 4 0).write 0 1).write 3 2).wf = true ∧ (((Segment.fresh 4 0).write 3 2).write 0 1).wf = true := by decide
-- MemoryOutsideTheStoresIsUnchanged: a write that does not store to its neighbour, and one that stores.
theorem wit_outside :
    (∃ t, exec (.segSet .main 0x123 0x55) (banked 0x00) = .next t) ∧
    ¬ storesTo (.segSet .main 0x123 0x55) (banked 0x00) .main 0x124 ∧ storesTo (.segSet .main 0x123 0x55) (banked 0x00) .main 0x123 := by
  refine ⟨⟨_, rfl⟩, ?_, rfl, rfl⟩
  rintro ⟨-, h⟩
  exact absurd h (by decide)
-- ReadingTransactionsWriteNothing, CpuBusTouchesOnlyModeAndRam, SegmentPortTouchesOnlySegments, DrivePortTouchesOnlyItsDrive.
theorem wit_frames :
    (∃ t, exec (.drvGetHead 0) (readyAt 5 17) = .next t) ∧ (∃ t, exec (.busRd 0x123) (banked 0x01) = .next t) ∧
    (∃ t, exec (.busWr 0x123 0x55) (banked 0x01) = .next t) ∧ (∃ t, exec (.segCopy (.buf .data 0) 0 [1, 2]) (readyAt 5 17) = .next t) ∧
    (∃ t, exec (.drvSetFlags 0 0x0F) (readyAt 5 17) = .next t) :=
  ⟨⟨_, rfl⟩, ⟨_, rfl⟩, ⟨_, rfl⟩, ⟨_, rfl⟩, ⟨_, rfl⟩⟩

end Sys2Proof.Tests
end

/-! # PROOFS: the mode register (10_state.md R23, R24)

MemMode bit by bit under the traps, the one way a transaction changes MemMode, and what the address decoder reads of it. -/

namespace Sys2Proof.Machine

/-! ## The bits of MemMode under Set and Unset -/

theorem flagBit_lt (f : ModeFlag) : flagBit f < 8 := by
  cases f <;> decide

theorem flagOfBit_flagBit : Function.LeftInverse flagOfBit flagBit := by
  intro f
  cases f <;> rfl

theorem flagMask_getLsbD (f : ModeFlag) (n : Nat) : (flagMask f).getLsbD n = decide (flagBit f = n) := by
  rw [show flagMask f = BitVec.twoPow 8 (flagBit f) from rfl, BitVec.getLsbD_twoPow]
  simp [flagBit_lt f]

theorem setFlag_getLsbD_self (f : ModeFlag) (m : Byte) : (setFlag f m).getLsbD (flagBit f) = true := by
  simp [setFlag, flagMask_getLsbD]

theorem setFlag_getLsbD_ne {f : ModeFlag} (m : Byte) {n : Nat} (hne : n ≠ flagBit f) :
    (setFlag f m).getLsbD n = m.getLsbD n := by
  simp [setFlag, flagMask_getLsbD, hne.symm]

theorem unsetFlag_getLsbD_self (f : ModeFlag) (m : Byte) : (unsetFlag f m).getLsbD (flagBit f) = false := by
  simp [unsetFlag, flagMask_getLsbD]

theorem unsetFlag_getLsbD_ne {f : ModeFlag} (m : Byte) {n : Nat} (hn : n < 8) (hne : n ≠ flagBit f) :
    (unsetFlag f m).getLsbD n = m.getLsbD n := by
  rw [unsetFlag, BitVec.getLsbD_and, BitVec.getLsbD_not, flagMask_getLsbD]
  simp [hn, hne.symm]

/-- The flag a trap names. -/
def trapFlag : Trap → ModeFlag
  | .probe f => f
  | .set f => f
  | .unset f => f

/-- A trap keeps every bit but that of its own flag. -/
theorem runTrap_getLsbD_ne (k : Trap) (m : Byte) {n : Nat} (hn : n < 8) (hne : n ≠ flagBit (trapFlag k)) :
    (runTrap k m).2.getLsbD n = m.getLsbD n := by
  cases k with
  | probe f => rfl
  | set f => exact setFlag_getLsbD_ne m hne
  | unset f => exact unsetFlag_getLsbD_ne m hn hne

/-! ## Which transactions change MemMode -/

/-- The transaction is a bus access to `a` that runs trap `k` (41_bus.md R109). -/
def RunsTrap (i : Instr) (s : State) (a : Addr) (k : Trap) : Prop :=
  (i = .busRd a ∧ resolveRead s.cfg a s.memMode = .trap k) ∨
    ∃ v, i = .busWr a v ∧ resolveWrite s.cfg a s.memMode = .trap k

theorem execBusRd_of_trap {s : State} {a : Addr} {k : Trap} (hf : s.fault = none)
    (hr : resolveRead s.cfg a s.memMode = .trap k) :
    execBusRd a s =
      .next ({ s with memMode := (runTrap k s.memMode).2 }.respond (.byte (runTrap k s.memMode).1)) := by
  simp [execBusRd, running_of_none hf, hr]

theorem execBusWr_of_trap {s : State} {a : Addr} (v : Byte) {k : Trap} (hf : s.fault = none)
    (hr : resolveWrite s.cfg a s.memMode = .trap k) :
    execBusWr a v s = .next ({ s with memMode := (runTrap k s.memMode).2 }.respond .done) := by
  simp [execBusWr, running_of_none hf, hr]

/-- An access that runs a trap leaves the MemMode of the trap. -/
theorem RunsTrap.memMode {i : Instr} {s t : State} {a : Addr} {k : Trap} (hk : RunsTrap i s a k)
    (h : exec i s = .next t) : t.memMode = (runTrap k s.memMode).2 := by
  have hf : s.fault = none := (exec_next_mark h).1
  rcases hk with ⟨rfl, hr⟩ | ⟨v, rfl, hr⟩
  · cases (execBusRd_of_trap hf hr).symm.trans h
    rfl
  · cases (execBusWr_of_trap v hf hr).symm.trans h
    rfl

/-- A transaction other than RESET keeps MemMode or runs a trap. -/
theorem exec_memMode_eq_or_runsTrap {i : Instr} {s t : State} (hi : i ≠ .reset) (h : exec i s = .next t) :
    t.memMode = s.memMode ∨ ∃ a k, RunsTrap i s a k := by
  cases i with
  | reset => exact absurd rfl hi
  | busRd a =>
    obtain ⟨-, ⟨_, _, _, _, _, rfl, _⟩ | ⟨_, _, _, rfl, _⟩ | ⟨k, hr, -⟩ | ⟨_, rfl⟩⟩ := execBusRd_next h
    · exact .inl rfl
    · exact .inl rfl
    · exact .inr ⟨a, k, .inl ⟨rfl, hr⟩⟩
    · exact .inl rfl
  | busWr a v =>
    obtain ⟨-, ⟨_, _, _, _, _, _, rfl⟩ | ⟨_, _, _, _, rfl⟩ | ⟨k, hr, -⟩ | ⟨_, rfl⟩ | ⟨_, rfl⟩⟩ := execBusWr_next h
    · exact .inl (by simp)
    · exact .inl rfl
    · exact .inr ⟨a, k, .inr ⟨v, rfl, hr⟩⟩
    · exact .inl rfl
    · exact .inl rfl
  | mmGet => obtain ⟨-, rfl⟩ := execMmGet_next h; exact .inl rfl
  | segGet q k =>
    obtain ⟨-, ⟨-, rfl⟩ | ⟨-, ⟨_, _, _, _, rfl⟩ | ⟨_, rfl⟩⟩⟩ := execSegGet_next h <;> exact .inl rfl
  | segSet q k v =>
    obtain ⟨-, ⟨-, rfl⟩ | ⟨-, ⟨_, _, _, _, rfl⟩ | ⟨_, rfl⟩⟩⟩ := execSegSet_next h <;> exact .inl (by simp)
  | segCopy q k bs =>
    obtain ⟨-, ⟨-, rfl⟩ | ⟨-, ⟨_, rfl⟩ | ⟨_, _, ⟨_, _, rfl⟩ | ⟨_, rfl⟩⟩⟩⟩ := execSegCopy_next h <;>
      exact .inl (by simp)
  | segSize q => obtain ⟨-, ⟨-, rfl⟩ | ⟨-, rfl⟩⟩ := execSegSize_next h <;> exact .inl rfl
  | segAttach b d n => obtain ⟨-, ⟨-, rfl⟩ | ⟨_, _, rfl⟩⟩ := execSegAttach_next h <;> exact .inl rfl
  | drvStepPhase d _ | drvShift d _ | drvStep d _ | drvSetFlags d _ | drvSetImagetype d _ =>
    obtain ⟨-, ⟨-, rfl⟩ | ⟨_, _, rfl⟩⟩ := updateDrive_next h <;> exact .inl rfl
  | drvPosition d | drvGetHead d | drvGetFlags d | drvGetImagetype d =>
    obtain ⟨-, ⟨-, rfl⟩ | ⟨_, _, rfl⟩⟩ := reportDrive_next h <;> exact .inl rfl

/-- Settles O14: only a trap changes MemMode, and a trap changes no bit but that of its flag. -/
theorem modeFlagsAreIndependent : Obligations.ModeFlagsAreIndependent := by
  unfold Obligations.ModeFlagsAreIndependent
  intro i s t hi h
  refine ⟨?_, fun a f hk => ?_, fun a f hk => ?_⟩
  · rcases exec_memMode_eq_or_runsTrap hi h with hm | ⟨a, k, hk⟩
    · exact ⟨.readAux, fun n _ _ => by rw [hm]⟩
    · exact ⟨trapFlag k, fun n hn hne => by rw [hk.memMode h, runTrap_getLsbD_ne k _ hn hne]⟩
  · have hm : t.memMode = setFlag f s.memMode := RunsTrap.memMode hk h
    rw [hm]
    exact ⟨setFlag_getLsbD_self f _, fun _ _ => setFlag_getLsbD_ne _⟩
  · have hm : t.memMode = unsetFlag f s.memMode := RunsTrap.memMode hk h
    rw [hm]
    exact ⟨unsetFlag_getLsbD_self f _, fun _ => unsetFlag_getLsbD_ne _⟩

/-! ## What the address decoder reads of MemMode -/

/-- With Mem80Store clear the display override decides nothing, so the enable alone selects the bank (41_bus.md R107, R108). -/
theorem ramBank_of_store80_clear (f : ModeFlag) (c : Config) (a : Addr) {m : Byte} (hm : flag m .store80 = false) :
    ramBank f c a m = bankOf (flag m f) := by
  simp [ramBank, overrides, hm]

/-- The ROM windows read three flags (41_bus.md R111). -/
theorem romWindow_congr (a : Addr) {m n : Byte} (hx : flag m .slotCxROM = flag n .slotCxROM)
    (h3 : flag m .slotC3ROM = flag n .slotC3ROM) (he : flag m .expROM = flag n .expROM) :
    romWindow a m = romWindow a n := by
  simp only [romWindow, hx, h3, he]

/-- A read resolves by its bank and its ROM window. -/
theorem resolveRead_congr (c : Config) (a : Addr) {m n : Byte}
    (hb : ramBank .readAux c a m = ramBank .readAux c a n) (hw : romWindow a m = romWindow a n) :
    resolveRead c a m = resolveRead c a n := by
  simp only [resolveRead, hb, hw]

/-- A write resolves by its bank. -/
theorem resolveWrite_congr (c : Config) (a : Addr) {m n : Byte}
    (hb : ramBank .writeAux c a m = ramBank .writeAux c a n) : resolveWrite c a m = resolveWrite c a n := by
  simp only [resolveWrite, hb]

/-- Settles O19: with Mem80Store clear the decoder reads neither flag, and a Set trap of either keeps Mem80Store. -/
theorem pageTwoAndHiresAreGated : Obligations.PageTwoAndHiresAreGated := by
  unfold Obligations.PageTwoAndHiresAreGated
  refine ⟨fun c a m n hm hn hmn => ?_, fun s a v f hf h80 hpair hr => ?_⟩
  · -- the hypothesis on bits 3 and 4, read as one on the two flags
    have agree : ∀ f : ModeFlag, f ≠ .page2 → f ≠ .hires → flag m f = flag n f := fun f h3 h4 =>
      hmn (flagBit f) (flagBit_lt f) (flagOfBit_flagBit.injective.ne h3) (flagOfBit_flagBit.injective.ne h4)
    have bank : ∀ f : ModeFlag, f ≠ .page2 → f ≠ .hires → ramBank f c a m = ramBank f c a n := fun f h3 h4 => by
      rw [ramBank_of_store80_clear f c a hm, ramBank_of_store80_clear f c a hn, agree f h3 h4]
    have window : romWindow a m = romWindow a n :=
      romWindow_congr a (agree _ (by decide) (by decide)) (agree _ (by decide) (by decide))
        (agree _ (by decide) (by decide))
    exact ⟨resolveRead_congr c a (bank _ (by decide) (by decide)) window,
      resolveWrite_congr c a (bank _ (by decide) (by decide))⟩
  · have keeps80 : 2 ≠ flagBit f := by rcases hpair with rfl | rfl <;> decide
    exact ⟨_, execBusWr_of_trap v hf hr, setFlag_getLsbD_self f _,
      (setFlag_getLsbD_ne _ keeps80).trans h80⟩

end Sys2Proof.Machine

/-! # PROOFS: the segment port (40_segment.md R95, R96)

What a bulk write leaves in each cell, and the next states of SEG_COPY and SEG_SIZE. -/

namespace Sys2Proof.Machine

/-! ## The cells of a segment after a bulk write -/

theorem Segment.read_writeBytes_inside (g : Segment) (i : Nat) {bs : List Byte} {k : Nat} (hk : k < bs.length) :
    (g.writeBytes i bs).read (i + k) = bs[k] := by
  simp [Segment.read_writeBytes, hk]

theorem Segment.read_writeBytes_outside (g : Segment) {i j : Nat} {bs : List Byte} (hj : j < i ∨ i + bs.length ≤ j) :
    (g.writeBytes i bs).read j = g.read j := by
  rw [Segment.read_writeBytes, if_neg (by omega)]

/-! ## The length and the bytes of a segment of the state -/

/-- An absent buffer has length 0 (40_segment.md R99). -/
theorem State.segLen_of_none {s : State} {r : SegRef} (h : s.segOf r = none) : s.segLen r = 0 := by
  simp [State.segLen, h]

theorem State.segLen_congr {s t : State} {r : SegRef} (h : t.segOf r = s.segOf r) : t.segLen r = s.segLen r := by
  simp only [State.segLen, h]

theorem State.peek_congr {s t : State} {r : SegRef} (h : t.segOf r = s.segOf r) (a : Nat) : t.peek r a = s.peek r a := by
  simp only [State.peek, State.segGet?, h]

theorem State.peek_of_some {s : State} {r : SegRef} {g : Segment} (h : s.segOf r = some g) (a : Nat) :
    s.peek r a = if a < g.len then some (g.read a) else none := by
  simp [State.peek, State.segGet?, h]

/-! ## The bulk write of the state -/

section segCopy
variable {s t : State} {r : SegRef} {start : Int} {bs : List Byte}

/-- A bulk write that fits is made. -/
theorem State.exists_segCopy?_of_fits (h0 : 0 ≤ start) (h1 : start + bs.length ≤ (s.segLen r : Int)) :
    ∃ t, s.segCopy? r start bs = some t := by
  refine Option.ne_none_iff_exists'.mp fun hnone => ?_
  have := State.segCopy?_eq_none.mp hnone
  omega

/-- The segment after a bulk write. An absent buffer stays absent. -/
theorem State.segOf_of_segCopy? (h : s.segCopy? r start bs = some t) :
    t.segOf r = (s.segOf r).map fun g => g.writeBytes start.toNat bs := by
  obtain ⟨-, -, ⟨g, hg, rfl⟩ | ⟨hg, rfl⟩⟩ := State.segCopy?_some h
  · rw [State.segOf_setSeg hg, hg]
    rfl
  · rw [hg]
    rfl

theorem State.segOf_of_segCopy?_ne (h : s.segCopy? r start bs = some t) {q : SegRef} (hq : q ≠ r) :
    t.segOf q = s.segOf q := by
  obtain ⟨-, -, ⟨g, -, rfl⟩ | ⟨-, rfl⟩⟩ := State.segCopy?_some h
  · exact State.segOf_setSeg_ne hq
  · rfl

theorem State.fault_of_segCopy? (h : s.segCopy? r start bs = some t) : t.fault = s.fault := by
  obtain ⟨-, -, ⟨g, -, rfl⟩ | ⟨-, rfl⟩⟩ := State.segCopy?_some h
  · exact State.setSeg_fault s r _
  · rfl

theorem State.segLen_of_segCopy? (h : s.segCopy? r start bs = some t) : t.segLen r = s.segLen r := by
  have ht := State.segOf_of_segCopy? h
  cases hg : s.segOf r with
  | none => rw [State.segLen_of_none hg, State.segLen_of_none (by simpa [hg] using ht)]
  | some g =>
    rw [hg] at ht
    rw [State.segLen_of_some hg, State.segLen_of_some ht, Segment.len_writeBytes]

/-- Inside the range each cell holds its byte of the payload. -/
theorem State.peek_of_segCopy?_inside (h : s.segCopy? r start bs = some t) {k : Nat} (hk : k < bs.length) :
    t.peek r (start.toNat + k) = some bs[k] := by
  have ht := State.segOf_of_segCopy? h
  obtain ⟨h0, h1, -⟩ := State.segCopy?_some h
  cases hg : s.segOf r with
  | none =>
    rw [State.segLen_of_none hg] at h1
    omega
  | some g =>
    rw [State.segLen_of_some hg] at h1
    rw [hg] at ht
    have hlt : start.toNat + k < (g.writeBytes start.toNat bs).len := by
      rw [Segment.len_writeBytes]
      omega
    rw [State.peek_of_some ht, if_pos hlt, Segment.read_writeBytes_inside g _ hk]

/-- Outside the range each cell, where there is one, is as before. -/
theorem State.peek_of_segCopy?_outside (h : s.segCopy? r start bs = some t) {a : Nat}
    (ha : (a : Int) < start ∨ start + bs.length ≤ a) : t.peek r a = s.peek r a := by
  have ht := State.segOf_of_segCopy? h
  obtain ⟨h0, -, -⟩ := State.segCopy?_some h
  cases hg : s.segOf r with
  | none => exact State.peek_congr (by rw [ht, hg]; rfl) a
  | some g =>
    rw [hg] at ht
    rw [State.peek_of_some ht, State.peek_of_some hg, Segment.len_writeBytes,
      Segment.read_writeBytes_outside g (by omega)]

end segCopy

/-! ## The next states of SEG_COPY and SEG_SIZE -/

theorem execSegCopy_of_out {s : State} {r : SegRef} {start : Int} {bs : List Byte} (hf : s.fault = none)
    (hr : r.ok s.drives.length = true) (hb : start < 0 ∨ (s.segLen r : Int) < start + bs.length) :
    execSegCopy r start bs s = .next (s.respond (.copyErr errCopyBounds)) := by
  simp only [execSegCopy, withSeg_of_ok hr, running_of_none hf, State.segCopy?_eq_none.mpr hb]

theorem execSegCopy_of_segCopy? {s t : State} {r : SegRef} {start : Int} {bs : List Byte} (hf : s.fault = none)
    (hr : r.ok s.drives.length = true) (h : s.segCopy? r start bs = some t) :
    execSegCopy r start bs s = .next (t.respond (.copyOk bs.length)) := by
  simp only [execSegCopy, withSeg_of_ok hr, running_of_none hf, h]

theorem execSegSize_of_ok {s : State} {r : SegRef} (hf : s.fault = none) (hr : r.ok s.drives.length = true) :
    execSegSize r s = .next (s.respond (.int (s.segLen r))) := by
  rw [execSegSize, withSeg_of_ok hr, running_of_none hf]

/-- Settles O29: the bounds check of the bulk write decides between the error and the copy, and a copy that is made is
the payload inside the range and the old byte outside it. -/
theorem segCopyWritesAllOrNothing : Obligations.SegCopyWritesAllOrNothing := by
  unfold Obligations.SegCopyWritesAllOrNothing
  intro s r start bs hf hr
  refine ⟨rfl, fun hb => execSegCopy_of_out hf hr hb, fun h0 h1 => ?_⟩
  obtain ⟨u, hu⟩ := State.exists_segCopy?_of_fits h0 h1
  have same (q : SegRef) : (u.respond (.copyOk bs.length)).segOf q = u.segOf q := State.respond_segOf u _ q
  refine ⟨u.respond (.copyOk bs.length), execSegCopy_of_segCopy? hf hr hu, rfl, ?fault, ?len, fun k hk => ?inside,
    fun a ha => ?outside, fun q a hq => ?other⟩
  case fault => exact (State.fault_of_segCopy? hu).trans hf
  case len => exact (State.segLen_congr (same r)).trans (State.segLen_of_segCopy? hu)
  case inside => exact (State.peek_congr (same r) _).trans (State.peek_of_segCopy?_inside hu hk)
  case outside => exact (State.peek_congr (same r) a).trans (State.peek_of_segCopy?_outside hu ha)
  case other => exact State.peek_congr ((same q).trans (State.segOf_of_segCopy?_ne hu hq)) a

/-- Settles O31: the response is the length of the segment, which the invariants give for Main, Aux and Rom. -/
theorem segSizeReturnsTheLength : Obligations.SegSizeReturnsTheLength := by
  unfold Obligations.SegSizeReturnsTheLength
  intro s r hf hr
  refine ⟨rfl, ?_, fun hinv => ?_⟩
  · have hsize := execSegSize_of_ok hf hr
    cases hg : s.segOf r with
    | none =>
      rw [State.segLen_of_none hg] at hsize
      exact hsize
    | some g =>
      rw [State.segLen_of_some hg] at hsize
      exact hsize
  · obtain ⟨-, hmain, haux, hrom, -⟩ := hinv
    have size (q : SegRef) {g : Segment} {n : Nat} (hq : s.segOf q = some g) (hn : g.len = n) :
        execSegSize q s = .next (s.respond (.int n)) := by
      rw [execSegSize_of_ok hf (segRef_ok_of_segOf hq), State.segLen_of_some hq, hn]
    exact ⟨size .main rfl hmain, size .aux rfl haux, size .rom rfl hrom⟩

end Sys2Proof.Machine

/-! # PROOFS: the RAM accesses of the CPU bus (41_bus.md R107, R108)

Below 0xC000: which bank an access resolves to, and the next state of a read and of a write of that bank's cell. -/

namespace Sys2Proof.Machine

/-! ## The bank of an access -/

/-- When the 80Store override decides the access, in the flags' bit numbers (41_bus.md R107). -/
theorem overrides_eq_true_iff {c : Config} {a : Addr} {m : Byte} :
    overrides c a m = true ↔ c.override80Store = true ∧ m.getLsbD 2 = true ∧
      ((0x0400 ≤ a.toNat ∧ a.toNat ≤ 0x07FF) ∨ (m.getLsbD 4 = true ∧ 0x2000 ≤ a.toNat ∧ a.toNat ≤ 0x3FFF)) := by
  simp [overrides, display, flag, flagBit, and_assoc]

theorem ramBank_of_not_overrides (f : ModeFlag) {c : Config} {a : Addr} {m : Byte} (h : ¬ overrides c a m = true) :
    ramBank f c a m = bankOf (flag m f) := if_neg h

theorem resolveRead_of_lt {c : Config} {a : Addr} {m : Byte} (ha : a.toNat < 0xC000) :
    resolveRead c a m = .ram (ramBank .readAux c a m) a.toNat := if_pos ha

theorem resolveWrite_of_lt {c : Config} {a : Addr} {m : Byte} (ha : a.toNat < 0xC000) :
    resolveWrite c a m = .ram (ramBank .writeAux c a m) a.toNat := if_pos ha

/-! ## The next states of a RAM access -/

theorem execBusRd_of_ram {s : State} {a : Addr} {b : Bank} {i : Nat} {g : Segment} (hf : s.fault = none)
    (hr : resolveRead s.cfg a s.memMode = .ram b i) (hg : s.segOf b.ref = some g) (hi : i < g.len) :
    execBusRd a s = .next (s.respond (.byte (g.read i))) := by
  simp only [execBusRd, running_of_none hf, hr, busReadCell_of_lt hg hi]

theorem execBusWr_of_ram {s : State} {a : Addr} (v : Byte) {b : Bank} {i : Nat} {g : Segment} (hf : s.fault = none)
    (hr : resolveWrite s.cfg a s.memMode = .ram b i) (hg : s.segOf b.ref = some g) (hi : i < g.len) :
    execBusWr a v s = .next ((s.setSeg b.ref (g.write i v)).respond .done) := by
  simp only [execBusWr, running_of_none hf, hr, busWriteCell_of_lt hg hi]

section bank
variable {s : State} {a : Addr} {sel : Bool} (hf : s.fault = none) (ha : a.toNat < 0xC000)
  (hmain : a.toNat < s.main.len) (haux : a.toNat < s.aux.len)
include hf ha hmain haux

/-- BUS_RD below 0xC000, by the bit `sel` that selects the bank: the byte of Aux or of Main. -/
theorem exec_busRd_of_ramBank (hb : ramBank .readAux s.cfg a s.memMode = bankOf sel) :
    exec (.busRd a) s = .next { s with
      resp := some (.byte ((if sel then s.aux else s.main).read a.toNat)), extOut := none } := by
  have hr : resolveRead s.cfg a s.memMode = .ram (bankOf sel) a.toNat := by rw [resolveRead_of_lt ha, hb]
  cases sel with
  | true => exact execBusRd_of_ram hf hr rfl haux
  | false => exact execBusRd_of_ram hf hr rfl hmain

/-- BUS_WR below 0xC000, by the bit `sel` that selects the bank: the cell of Aux or of Main is written. -/
theorem exec_busWr_of_ramBank (v : Byte) (hb : ramBank .writeAux s.cfg a s.memMode = bankOf sel) :
    exec (.busWr a v) s = .next (if sel
      then { s with aux := s.aux.write a.toNat v, resp := some .done, extOut := none }
      else { s with main := s.main.write a.toNat v, resp := some .done, extOut := none }) := by
  have hr : resolveWrite s.cfg a s.memMode = .ram (bankOf sel) a.toNat := by rw [resolveWrite_of_lt ha, hb]
  cases sel with
  | true => exact execBusWr_of_ram v hf hr rfl haux
  | false => exact execBusWr_of_ram v hf hr rfl hmain

end bank

/-- Settles O10: where the override does not decide the access, each bank is selected by its own enable. -/
theorem ramAccessesFollowTheAuxEnables : Obligations.RamAccessesFollowTheAuxEnables := by
  unfold Obligations.RamAccessesFollowTheAuxEnables
  intro s a v hf ha hmain haux hdisplay
  have hno : ¬ overrides s.cfg a s.memMode = true := mt overrides_eq_true_iff.mp hdisplay
  exact ⟨exec_busRd_of_ramBank hf ha hmain haux (ramBank_of_not_overrides .readAux hno),
    exec_busWr_of_ramBank hf ha hmain haux v (ramBank_of_not_overrides .writeAux hno)⟩

end Sys2Proof.Machine

/-! # PROOFS: the drive head (42_drive.md R125, R126, R128, R137)

What each head transaction makes of its drive, and the next state of a transaction that changes its drive. -/

namespace Sys2Proof.Machine

/-! ## The moves of the head -/

/-- DRV_STEP's move with the number of half-tracks written out (42_drive.md R125). -/
theorem Drive.step_eq (off : Int) (D : Drive) :
    D.step off = { D with trackPos := max 0 (min 70 (D.trackPos + off)), sectorPos := 0 } := rfl

theorem Drive.shift_of_locked (off : Int) {D : Drive} (h : D.locked = true) : D.shift off = D := if_pos h

/-- DRV_SHIFT's move with the length of a track written out (42_drive.md R126). -/
theorem Drive.shift_of_unlocked (off : Int) {D : Drive} (h : D.locked = false) :
    D.shift off =
      { D with sectorPos := if D.sectorPos + off ≥ 6704 ∨ D.sectorPos + off < 0 then 0 else D.sectorPos + off } :=
  if_neg (by simp [h])

theorem Drive.shift_trackPos (off : Int) (D : Drive) : (D.shift off).trackPos = D.trackPos := by
  cases h : D.locked with
  | true => rw [Drive.shift_of_locked off h]
  | false => rw [Drive.shift_of_unlocked off h]

/-- The nibble `2 * p - 1` decodes to phase `p` (30_encoding.md R87). -/
theorem phaseDecode_of_phase {a : Addr} {p : Nat} (h1 : 1 ≤ p) (h4 : p ≤ 4) (ha : a.toNat % 16 = 2 * p - 1) :
    phaseDecode a = some (p : Int) := by
  unfold phaseDecode
  rw [ha]
  interval_cases p <;> rfl

/-- Any other nibble is no phase. -/
theorem phaseDecode_eq_none {a : Addr} (ha : a.toNat % 16 ∉ [1, 3, 5, 7]) : phaseDecode a = none := by
  unfold phaseDecode
  split
  case h_5 => rfl
  all_goals next h => simp [h] at ha

theorem Drive.stepPhase_of_some {a : Addr} {p : Int} (h : phaseDecode a = some p) (D : Drive) :
    D.stepPhase a = { D.step (phaseStep D.phase p) with phase := p } := by
  simp only [Drive.stepPhase, h]

theorem Drive.stepPhase_of_none {a : Addr} (h : phaseDecode a = none) (D : Drive) : D.stepPhase a = D := by
  simp only [Drive.stepPhase, h]

/-- A phase activation leaves SectorPos or zeroes it. -/
theorem Drive.stepPhase_sectorPos (a : Addr) (D : Drive) :
    (D.stepPhase a).sectorPos = D.sectorPos ∨ (D.stepPhase a).sectorPos = 0 := by
  cases h : phaseDecode a with
  | none => exact .inl (by rw [Drive.stepPhase_of_none h])
  | some p => exact .inr (by rw [Drive.stepPhase_of_some h]; rfl)

/-! ## The next state of a transaction that changes its drive -/

theorem State.drive_setDrive {s : State} {d : DriveIx} {D : Drive} (hD : s.drives[d.toNat]? = some D) (E : Drive) :
    (s.setDrive d E).drives[d.toNat]? = some E := by
  obtain ⟨hlt, -⟩ := List.getElem?_eq_some_iff.mp hD
  exact List.getElem?_set_self hlt

section updateDrive
variable {s t : State} {d : DriveIx} {D E : Drive} {f : Drive → Drive}

theorem updateDrive_of_same (hf : s.fault = none) (hD : s.drives[d.toNat]? = some D) (h : f D = D) :
    updateDrive d f s = .next (s.respond .done) := by
  rw [updateDrive_of_some hf hD, h, State.setDrive_same hD]

/-- The next state holds the changed drive. -/
theorem drive_of_updateDrive_next (hD : s.drives[d.toNat]? = some D) (hE : t.drives[d.toNat]? = some E)
    (h : updateDrive d f s = .next t) : E = f D := by
  have hf : s.fault = none := (updateDrive_next h).1
  cases (updateDrive_of_some hf hD).symm.trans h
  exact Option.some.inj (hE.symm.trans (State.drive_setDrive hD (f D)))

end updateDrive

theorem State.Inv.drive_ok {s : State} {d : DriveIx} {D : Drive} (h : s.Inv) (hD : s.drives[d.toNat]? = some D) :
    D.Ok := by
  obtain ⟨-, -, -, -, -, -, -, -, hall⟩ := h
  exact hall D (List.mem_of_getElem? hD)

/-- Settles O33: DRV_STEP is the update of its drive by the clamped step. -/
theorem drvStepClampsAndZeroes : Obligations.DrvStepClampsAndZeroes := by
  unfold Obligations.DrvStepClampsAndZeroes
  intro s d off D hf hD
  exact ⟨rfl, updateDrive_of_some hf hD⟩

/-- Settles O34: DRV_SHIFT is the update of its drive by the shift, which Locked makes the identity. -/
theorem drvShiftMovesOrResets : Obligations.DrvShiftMovesOrResets := by
  unfold Obligations.DrvShiftMovesOrResets
  intro s d off D hf hD
  refine ⟨rfl, fun hl => updateDrive_of_same hf hD (Drive.shift_of_locked off hl), fun hl => ?_⟩
  rw [← Drive.shift_of_unlocked off hl]
  exact updateDrive_of_some hf hD

/-- Settles O35: the nibble's decoding decides between the update by the step of the phase table and no change. -/
theorem drvStepPhaseActivates : Obligations.DrvStepPhaseActivates := by
  unfold Obligations.DrvStepPhaseActivates
  intro s d a D hf hD
  refine ⟨rfl, fun p h1 h4 ha => ?phase, fun ha => ?noPhase⟩
  case phase =>
    have hmove := Drive.stepPhase_of_some (phaseDecode_of_phase h1 h4 ha) D
    have hnext : exec (.drvStepPhase d a) s = .next ((s.setDrive d (D.stepPhase a)).respond .done) :=
      updateDrive_of_some hf hD
    rw [hmove] at hnext
    refine ⟨⟨_, _, hnext, State.drive_setDrive hD _, rfl, rfl⟩, fun hp0 hp4 => ⟨?_, ?_, rfl, hnext⟩⟩ <;> omega
  case noPhase => exact updateDrive_of_same hf hD (Drive.stepPhase_of_none (phaseDecode_eq_none ha) D)

/-- Settles O44: the drive after each transaction is its move of the drive before, and every move keeps the ranges. -/
theorem twoIndependentAxes : Obligations.TwoIndependentAxes := by
  unfold Obligations.TwoIndependentAxes
  intro s t d off a D E hD hE
  have shifted (h : exec (.drvShift d off) s = .next t) : E = D.shift off := drive_of_updateDrive_next hD hE h
  have stepped (h : exec (.drvStep d off) s = .next t) : E = D.step off := drive_of_updateDrive_next hD hE h
  have activated (h : exec (.drvStepPhase d a) s = .next t) : E = D.stepPhase a := drive_of_updateDrive_next hD hE h
  refine ⟨fun h => ?track, fun h => ?stepZero, fun h => ?phaseZero, fun hinv h => ?ranges⟩
  case track => rw [shifted h, Drive.shift_trackPos]
  case stepZero => rw [stepped h, Drive.step_eq]
  case phaseZero =>
    rw [activated h]
    exact Drive.stepPhase_sectorPos a D
  case ranges =>
    have hok : D.Ok := hinv.drive_ok hD
    have hnew : E.Ok := by
      rcases h with h | h | h
      · exact shifted h ▸ hok.shift off
      · exact stepped h ▸ hok.step off
      · exact activated h ▸ hok.stepPhase a
    obtain ⟨-, ⟨ht0, ht⟩, ⟨hs0, hs⟩, -⟩ := hnew
    exact ⟨ht0, ht, hs0, hs⟩

end Sys2Proof.Machine

/-! # PROOFS: the defined no-ops of the drives (60_exceptions.md R152) -/

namespace Sys2Proof.Machine

/-- Settles O37: a nibble that is no phase, and Locked for a shift, make the update of the drive the identity. -/
theorem definedNoOps : Obligations.DefinedNoOps := by
  unfold Obligations.DefinedNoOps
  intro s d D hf hD
  refine ⟨fun a h1 h3 h5 h7 => ?noPhase, fun hlocked off => ?locked⟩
  case noPhase =>
    have hnone : phaseDecode a = none := phaseDecode_eq_none (by simp [h1, h3, h5, h7])
    exact updateDrive_of_same hf hD (Drive.stepPhase_of_none hnone D)
  case locked => exact updateDrive_of_same hf hD (Drive.shift_of_locked off hlocked)

end Sys2Proof.Machine

/-! # PROOFS: Locked (70_reset_and_hazards.md R175)

Clearing Locked commutes with every shared operation of the meanings, and so with every transaction that neither reads nor
sets the flag. -/

namespace Sys2Proof.Machine

/-! ## Clearing Locked in a drive, in every drive and in an outcome -/

/-- One drive of `State.unlocked`. -/
def Drive.unlocked (D : Drive) : Drive := { D with locked := false }

/-- The outcome with Locked cleared in its next state. -/
def unlockedOutcome : Host.Outcome State Fault Refusal → Host.Outcome State Fault Refusal
  | .next t => .next t.unlocked
  | .fault r => .fault r
  | .refused r => .refused r

theorem State.unlocked_eq (s : State) : s.unlocked = { s with drives := s.drives.map Drive.unlocked } := rfl

theorem State.unlocked_drive? (s : State) (n : Nat) : s.unlocked.drives[n]? = (s.drives[n]?).map Drive.unlocked :=
  List.getElem?_map

section unlocked
variable (s : State)
@[simp] theorem State.unlocked_cfg : s.unlocked.cfg = s.cfg := rfl
@[simp] theorem State.unlocked_memMode : s.unlocked.memMode = s.memMode := rfl
@[simp] theorem State.unlocked_fault : s.unlocked.fault = s.fault := rfl
@[simp] theorem State.unlocked_draws : s.unlocked.draws = s.draws := rfl
end unlocked

/-! ## The buffers and the writes of the state do not see Locked -/

theorem Drive.unlocked_buf (D : Drive) (b : BufSel) : D.unlocked.buf b = D.buf b := by
  cases b <;> rfl

theorem Drive.unlocked_setBuf (D : Drive) (b : BufSel) (g : Segment) :
    D.unlocked.setBuf b g = (D.setBuf b g).unlocked := by
  cases b <;> rfl

theorem Drive.unlocked_stepPhase (a : Addr) (D : Drive) : D.unlocked.stepPhase a = (D.stepPhase a).unlocked := by
  cases h : phaseDecode a with
  | none => rw [Drive.stepPhase_of_none h, Drive.stepPhase_of_none h]
  | some p => rw [Drive.stepPhase_of_some h, Drive.stepPhase_of_some h]; rfl

@[simp] theorem State.unlocked_segOf (s : State) (r : SegRef) : s.unlocked.segOf r = s.segOf r := by
  cases r with
  | buf b d =>
    simp only [State.segOf, State.unlocked_drive?]
    cases s.drives[d.toNat]? with
    | none => rfl
    | some D => exact D.unlocked_buf b
  | _ => rfl

@[simp] theorem State.unlocked_segLen (s : State) (r : SegRef) : s.unlocked.segLen r = s.segLen r :=
  State.segLen_congr (s.unlocked_segOf r)

theorem State.unlocked_drawn (s : State) : s.unlocked.drawn = s.drawn.unlocked := rfl

theorem State.unlocked_setDrive (s : State) (d : DriveIx) (D : Drive) :
    s.unlocked.setDrive d D.unlocked = (s.setDrive d D).unlocked := by
  simp [State.setDrive, State.unlocked_eq, List.map_set]

theorem State.unlocked_setSeg (s : State) (r : SegRef) (g : Segment) :
    s.unlocked.setSeg r g = (s.setSeg r g).unlocked := by
  cases r with
  | buf b d =>
    have hmodify : (s.drives.map Drive.unlocked).modify d.toNat (Drive.setBuf b g) =
        (s.drives.modify d.toNat (Drive.setBuf b g)).map Drive.unlocked := by
      refine List.ext_getElem? fun n => ?_
      simp only [List.getElem?_modify, List.getElem?_map]
      cases s.drives[n]? with
      | none => rfl
      | some D => by_cases hn : d.toNat = n <;> simp [hn, Drive.unlocked_setBuf]
    simp only [State.setSeg, State.unlocked_eq, hmodify]
  | _ => rfl

theorem State.unlocked_segGet? (s : State) (r : SegRef) (i : Int) : s.unlocked.segGet? r i = s.segGet? r i := by
  simp only [State.segGet?, State.unlocked_segOf]

theorem State.unlocked_segSet? (s : State) (r : SegRef) (i : Int) (v : Byte) :
    s.unlocked.segSet? r i v = (s.segSet? r i v).map State.unlocked := by
  simp only [State.segSet?, State.unlocked_segOf, State.unlocked_setSeg]
  cases s.segOf r with
  | none => rfl
  | some g =>
    dsimp only
    split <;> rfl

theorem State.unlocked_segCopy? (s : State) (r : SegRef) (start : Int) (bs : List Byte) :
    s.unlocked.segCopy? r start bs = (s.segCopy? r start bs).map State.unlocked := by
  simp only [State.segCopy?, State.unlocked_segOf, State.unlocked_segLen, State.unlocked_setSeg]
  split
  · rfl
  · cases s.segOf r <;> rfl

/-! ## The guards and the shared meanings commute with it -/

section outcomes
variable {s : State} {k k' : Host.Outcome State Fault Refusal}

theorem running_unlocked (hk : k' = unlockedOutcome k) : running s.unlocked k' = unlockedOutcome (running s k) := by
  cases h : s.fault with
  | none => rw [running_of_none h, running_of_none (s.unlocked_fault.trans h), hk]
  | some r => rw [running_of_some h, running_of_some (s.unlocked_fault.trans h)]; rfl

theorem refuse_unlocked (reason : Refusal) : refuse reason s.unlocked = unlockedOutcome (refuse reason s) := by
  cases h : s.fault with
  | none => rw [refuse_of_none h, refuse_of_none (s.unlocked_fault.trans h)]; rfl
  | some r => rw [refuse_of_some h, refuse_of_some (s.unlocked_fault.trans h)]; rfl

theorem withDrive_unlocked {d : DriveIx} {f f' : Drive → Host.Outcome State Fault Refusal}
    (hf : ∀ D, f' D.unlocked = unlockedOutcome (f D)) :
    withDrive d s.unlocked f' = unlockedOutcome (withDrive d s f) := by
  simp only [withDrive, State.unlocked_drive?]
  cases s.drives[d.toNat]? with
  | none => exact refuse_unlocked _
  | some D => exact running_unlocked (hf D)

theorem withSeg_unlocked {r : SegRef} (hk : k' = unlockedOutcome k) :
    withSeg r s.unlocked k' = unlockedOutcome (withSeg r s k) := by
  cases r with
  | buf b d => exact withDrive_unlocked fun _ => hk
  | _ => exact running_unlocked hk

theorem nextOrFatal_unlocked {r : FaultRecord} {o o' : Option State} (ho : o' = o.map State.unlocked) :
    nextOrFatal s.unlocked r o' = unlockedOutcome (nextOrFatal s r o) := by
  subst ho
  cases o <;> rfl

/-- The answer of a read, on the bus and on the segment port. -/
theorem nextOrFatal_segGet?_unlocked (q : FaultRecord) (r : SegRef) (i : Int) :
    nextOrFatal s.unlocked q ((s.unlocked.segGet? r i).map fun v => s.unlocked.respond (.byte v)) =
      unlockedOutcome (nextOrFatal s q ((s.segGet? r i).map fun v => s.respond (.byte v))) := by
  refine nextOrFatal_unlocked ?_
  rw [State.unlocked_segGet?, Option.map_map]
  rfl

/-- The answer of a write, on the bus and on the segment port. -/
theorem nextOrFatal_segSet?_unlocked (q : FaultRecord) (r : SegRef) (i : Int) (v : Byte) :
    nextOrFatal s.unlocked q ((s.unlocked.segSet? r i v).map fun t => t.respond .done) =
      unlockedOutcome (nextOrFatal s q ((s.segSet? r i v).map fun t => t.respond .done)) := by
  refine nextOrFatal_unlocked ?_
  rw [State.unlocked_segSet?, Option.map_map, Option.map_map]
  rfl

theorem updateDrive_unlocked {d : DriveIx} {f : Drive → Drive} (hf : ∀ D : Drive, f D.unlocked = (f D).unlocked) :
    updateDrive d f s.unlocked = unlockedOutcome (updateDrive d f s) :=
  withDrive_unlocked fun D => by
    rw [hf, State.unlocked_setDrive]
    rfl

theorem reportDrive_unlocked {d : DriveIx} {f : Drive → Response} (hf : ∀ D : Drive, f D.unlocked = f D) :
    reportDrive d f s.unlocked = unlockedOutcome (reportDrive d f s) :=
  withDrive_unlocked fun D => by
    rw [hf]
    rfl

end outcomes

/-! ## Every transaction but three -/

theorem execBusRd_unlocked (a : Addr) (s : State) : execBusRd a s.unlocked = unlockedOutcome (execBusRd a s) := by
  refine running_unlocked ?_
  rw [State.unlocked_cfg, State.unlocked_memMode]
  cases resolveRead s.cfg a s.memMode with
  | ram _ _ | rom _ => exact nextOrFatal_segGet?_unlocked _ _ _
  | trap _ | extIo _ | periph _ => rfl

theorem execBusWr_unlocked (a : Addr) (v : Byte) (s : State) :
    execBusWr a v s.unlocked = unlockedOutcome (execBusWr a v s) := by
  refine running_unlocked ?_
  rw [State.unlocked_cfg, State.unlocked_memMode]
  cases resolveWrite s.cfg a s.memMode with
  | ram _ _ => exact nextOrFatal_segSet?_unlocked _ _ _ _
  | trap _ | extIo _ | discard => rfl

theorem execSegCopy_unlocked (r : SegRef) (start : Int) (bs : List Byte) (s : State) :
    execSegCopy r start bs s.unlocked = unlockedOutcome (execSegCopy r start bs s) := by
  refine withSeg_unlocked ?_
  rw [State.unlocked_segCopy?]
  cases s.segCopy? r start bs <;> rfl

theorem execSegSize_unlocked (r : SegRef) (s : State) :
    execSegSize r s.unlocked = unlockedOutcome (execSegSize r s) :=
  withSeg_unlocked (by rw [State.unlocked_segLen]; rfl)

theorem execSegAttach_unlocked (b : BufSel) (d : DriveIx) (n : Nat) (s : State) :
    execSegAttach b d n s.unlocked = unlockedOutcome (execSegAttach b d n s) :=
  withDrive_unlocked fun D => by
    rw [State.unlocked_draws, State.unlocked_drawn, Drive.unlocked_setBuf, State.unlocked_setDrive]
    rfl

/-- RESET makes drives that are unlocked (10_state.md R42). -/
theorem State.unlocked_create (s : State) : s.unlocked.create = s.create.unlocked := by
  simp [State.create, State.unlocked_eq, Drive.unlocked, Drive.initial]

theorem execReset_unlocked (s : State) : execReset s.unlocked = unlockedOutcome (execReset s) :=
  running_unlocked (by rw [State.unlocked_create]; rfl)

/-- The three left out are DRV_SHIFT, which Locked stops, and the two that report or set the flag. -/
theorem exec_unlocked {i : Instr} (hi : i.op ∉ [Op.drvShift, .drvGetFlags, .drvSetFlags]) (s : State) :
    exec i s.unlocked = unlockedOutcome (exec i s) := by
  cases i with
  | drvShift _ _ | drvGetFlags _ | drvSetFlags _ _ => simp [Instr.op] at hi
  | busRd a => exact execBusRd_unlocked a s
  | busWr a v => exact execBusWr_unlocked a v s
  | mmGet => exact running_unlocked rfl
  | segGet r k => exact withSeg_unlocked (nextOrFatal_segGet?_unlocked _ r k)
  | segSet r k v => exact withSeg_unlocked (nextOrFatal_segSet?_unlocked _ r k v)
  | segCopy r start bs => exact execSegCopy_unlocked r start bs s
  | segSize r => exact execSegSize_unlocked r s
  | segAttach b d n => exact execSegAttach_unlocked b d n s
  | drvStepPhase d a => exact updateDrive_unlocked (Drive.unlocked_stepPhase a)
  | drvStep d _ | drvSetImagetype d _ => exact updateDrive_unlocked fun _ => rfl
  | drvPosition d | drvGetHead d | drvGetImagetype d => exact reportDrive_unlocked fun _ => rfl
  | reset => exact execReset_unlocked s

/-! ## A phase activation, with Locked or without -/

/-- The four odd nibbles below 8 are the phases (30_encoding.md R87). -/
theorem exists_phaseDecode {a : Addr} (ha : a.toNat % 16 ∈ [1, 3, 5, 7]) : ∃ p, phaseDecode a = some p := by
  simp only [List.mem_cons, List.not_mem_nil, or_false] at ha
  exact ⟨_, phaseDecode_of_phase (p := (a.toNat % 16 + 1) / 2) (by omega) (by omega) (by omega)⟩

/-- Settles O43: Locked makes the shift the identity and no part of the two steps, and clearing it commutes with every
transaction that neither reads nor sets it. -/
theorem lockedStopsShiftOnly : Obligations.LockedStopsShiftOnly := by
  unfold Obligations.LockedStopsShiftOnly
  refine ⟨fun s d D off hf hD hlocked => ⟨?shift, ?step, fun a ha => ?phase⟩, fun i s t hi h => ?others⟩
  case shift => exact updateDrive_of_same hf hD (Drive.shift_of_locked off hlocked)
  case step => exact ⟨_, _, updateDrive_of_some hf hD, State.drive_setDrive hD _, rfl, rfl⟩
  case phase =>
    obtain ⟨p, hp⟩ := exists_phaseDecode ha
    refine ⟨_, _, updateDrive_of_some hf hD, State.drive_setDrive hD _, ?_⟩
    rw [Drive.stepPhase_of_some hp]
    exact ⟨rfl, fun _ _ => rfl⟩
  case others => rw [exec_unlocked hi, h]; rfl

end Sys2Proof.Machine

/-! # PROOFS: the word format (30_encoding.md R68, R76, R78, R79)

What the decoder makes of an operation's fields and of a payload, and that it inverts the encoder. -/

namespace Sys2Proof

/-! ## The decoder of a word whose operation is known -/

theorem decode_of_op {t : Txn} {o : Op} (hr : (unpack t.word).rsv ≠ 1) (ho : opOfCode (unpack t.word).op = some o) :
    decode t = (takePayload (payloadLen (unpack t.word) o) t.payload).bind fun p => decodeOp (unpack t.word) p o := by
  simp only [decode, hr, if_false, ho]

/-- RSV set is rejected before anything else is looked at (30_encoding.md R75). -/
theorem decode_of_rsv {t : Txn} (hr : (unpack t.word).rsv = 1) : decode t = .error .reservedBit := if_pos hr

/-- Two words that decode alike have the same RSV and OP, take the same payload, and read the same fields. -/
theorem decode_congr {t u : Txn} (hop : (unpack t.word).op = (unpack u.word).op)
    (hrsv : (unpack t.word).rsv = (unpack u.word).rsv) (hpay : t.payload = u.payload)
    (h : ∀ o, opOfCode (unpack t.word).op = some o → payloadLen (unpack t.word) o = payloadLen (unpack u.word) o ∧
      ∀ p, decodeOp (unpack t.word) p o = decodeOp (unpack u.word) p o) :
    decode t = decode u := by
  by_cases hr : (unpack t.word).rsv = 1
  · rw [decode_of_rsv hr, decode_of_rsv (hrsv ▸ hr)]
  · cases ho : opOfCode (unpack t.word).op with
    | none => simp only [decode, ← hrsv, ← hop, ho, hr, if_false]
    | some o =>
      obtain ⟨hlen, hdec⟩ := h o ho
      rw [decode_of_op hr ho, decode_of_op (hrsv ▸ hr) (hop ▸ ho), hlen, hpay, funext hdec]

/-! ## The fields of an encoded transaction -/

theorem Instr.fields_op (i : Instr) : i.fields.op = i.op.code := by cases i <;> rfl

theorem Instr.fields_rsv (i : Instr) : i.fields.rsv = 0 := by cases i <;> rfl

theorem unpack_encode (i : Instr) : unpack (encode i).word = i.fields := unpack_pack i.fields

theorem decode_encode (i : Instr) :
    decode (encode i) = (takePayload (payloadLen i.fields i.op) i.payload).bind fun p => decodeOp i.fields p i.op := by
  have hr : (unpack (encode i).word).rsv ≠ 1 := by rw [unpack_encode, i.fields_rsv]; decide
  have ho : opOfCode (unpack (encode i).word).op = some i.op := by rw [unpack_encode, i.fields_op, opOfCode_code]
  rw [decode_of_op hr ho, unpack_encode]
  rfl

theorem TxnFields.segRef_of_sel {f : TxnFields} {r : SegRef} (hs : f.sel = r.sel) (hd : f.drv = r.drv) :
    f.segRef = .ok r := by
  cases r with
  | buf b d => cases b <;> simp [TxnFields.segRef, hs, hd, SegRef.sel, SegRef.drv]
  | _ => simp [TxnFields.segRef, hs, SegRef.sel]

theorem TxnFields.bufSel_of_sel {f : TxnFields} {b : BufSel} {d : DriveIx} (hs : f.sel = (SegRef.buf b d).sel) :
    f.bufSel = .ok b := by
  cases b <;> simp [TxnFields.bufSel, hs, SegRef.sel]

theorem TxnFields.imageType_of_code {f : TxnFields} {y : ImageType} (h : f.data8 = y.code.setWidth 8) :
    f.imageType = .ok y := by
  cases y <;> simp [TxnFields.imageType, h, ImageType.code]

theorem immOk_natCast {n : Nat} (h : n ≤ 8388607) : immOk n = true := by
  simp only [immOk, Bool.and_eq_true, decide_eq_true_eq]
  omega

/-- The payload of a well-formed transaction is the one its word announces (30_encoding.md R76). -/
theorem takePayload_encode {n : Nat} {i : Instr} (h : i.wf n = true) :
    takePayload (payloadLen i.fields i.op) i.payload = .ok i.payload := by
  have hlen : payloadLen i.fields i.op = i.payload.length := by
    cases i with
    | segCopy r start bytes =>
      obtain ⟨-, hb⟩ : (r.ok n = true ∧ immOk start = true) ∧ bytes.length ≤ 65535 := by simpa [Instr.wf] using h
      exact (BitVec.toNat_ofNat bytes.length 16).trans (Nat.mod_eq_of_lt (by omega))
    | _ => rfl
  rw [hlen, takePayload_length]

/-- The operation reads back each operand from the field the encoder put it in. -/
theorem decodeOp_fields {n : Nat} {i : Instr} (h : i.wf n = true) : decodeOp i.fields i.payload i.op = .ok i := by
  cases i with
  | busRd _ | busWr _ _ | mmGet | drvStepPhase _ _ | drvPosition _ | drvGetHead _ | drvGetFlags _ | drvSetFlags _ _
    | drvGetImagetype _ | reset => rfl
  | segSize r =>
    have hr : (Instr.segSize r).fields.segRef = .ok r := TxnFields.segRef_of_sel rfl rfl
    simp only [decodeOp, Instr.op, hr]; rfl
  | segGet r k =>
    obtain ⟨-, himm⟩ : r.ok n = true ∧ immOk k = true := by simpa [Instr.wf] using h
    have hr : (Instr.segGet r k).fields.segRef = .ok r := TxnFields.segRef_of_sel rfl rfl
    have hk : (Instr.segGet r k).fields.imm = k := imm_immBits himm
    simp only [decodeOp, Instr.op, hr, hk]; rfl
  | segSet r k v =>
    obtain ⟨-, himm⟩ : r.ok n = true ∧ immOk k = true := by simpa [Instr.wf] using h
    have hr : (Instr.segSet r k v).fields.segRef = .ok r := TxnFields.segRef_of_sel rfl rfl
    have hk : (Instr.segSet r k v).fields.imm = k := imm_immBits himm
    simp only [decodeOp, Instr.op, hr, hk]; rfl
  | segCopy r k bytes =>
    obtain ⟨⟨-, himm⟩, -⟩ : (r.ok n = true ∧ immOk k = true) ∧ bytes.length ≤ 65535 := by simpa [Instr.wf] using h
    have hr : (Instr.segCopy r k bytes).fields.segRef = .ok r := TxnFields.segRef_of_sel rfl rfl
    have hk : (Instr.segCopy r k bytes).fields.imm = k := imm_immBits himm
    simp only [decodeOp, Instr.op, hr, hk]; rfl
  | segAttach b d len =>
    obtain ⟨-, hlen⟩ : driveOk n d = true ∧ len ≤ 8388607 := by simpa [Instr.wf] using h
    have hb : (Instr.segAttach b d len).fields.bufSel = .ok b := TxnFields.bufSel_of_sel (d := d) rfl
    have hk : (Instr.segAttach b d len).fields.imm = len := imm_immBits (immOk_natCast hlen)
    have hn : ¬ ((len : Int) < 0) := by omega
    simp only [decodeOp, Instr.op, hb, hk, Except.bind, hn, if_false]; rfl
  | drvShift d k =>
    obtain ⟨-, himm⟩ : driveOk n d = true ∧ immOk k = true := by simpa [Instr.wf] using h
    have hk : (Instr.drvShift d k).fields.imm = k := imm_immBits himm
    simp only [decodeOp, Instr.op, hk]; rfl
  | drvStep d k =>
    obtain ⟨-, himm⟩ : driveOk n d = true ∧ immOk k = true := by simpa [Instr.wf] using h
    have hk : (Instr.drvStep d k).fields.imm = k := imm_immBits himm
    simp only [decodeOp, Instr.op, hk]; rfl
  | drvSetImagetype d y =>
    have hy : (Instr.drvSetImagetype d y).fields.imageType = .ok y := TxnFields.imageType_of_code rfl
    simp only [decodeOp, Instr.op, hy]; rfl

/-- Settles O1: the word announces the payload, and the operation reads back every operand. -/
theorem decodeOfEncodeIsTheTransaction : Obligations.DecodeOfEncodeIsTheTransaction := by
  unfold Obligations.DecodeOfEncodeIsTheTransaction
  intro n i h
  rw [decode_encode, takePayload_encode h]
  exact decodeOp_fields h


/-! ## What the decoder accepts -/

theorem exists_of_except_map_ok {ε α β : Type} {f : α → β} {x : Except ε α} {b : β} (h : x.map f = .ok b) :
    ∃ a, x = .ok a ∧ f a = b := by
  cases x with
  | error e => cases h
  | ok a => exact ⟨a, rfl, Except.ok.inj h⟩

theorem exists_of_except_bind_ok {ε α β : Type} {f : α → Except ε β} {x : Except ε α} {b : β} (h : x.bind f = .ok b) :
    ∃ a, x = .ok a ∧ f a = .ok b := by
  cases x with
  | error e => cases h
  | ok a => exact ⟨a, rfl, h⟩

/-- An accepted word has RSV clear, an operation, and the payload it announces. -/
theorem decode_ok {t : Txn} {i : Instr} (h : decode t = .ok i) :
    ∃ o, opOfCode (unpack t.word).op = some o ∧ t.payload.length = payloadLen (unpack t.word) o ∧
      decodeOp (unpack t.word) t.payload o = .ok i := by
  by_cases hr : (unpack t.word).rsv = 1
  · rw [decode_of_rsv hr] at h
    cases h
  · cases ho : opOfCode (unpack t.word).op with
    | none =>
      simp only [decode, ho, hr, if_false] at h
      cases h
    | some o =>
      rw [decode_of_op hr ho] at h
      obtain ⟨p, hp, hdec⟩ := exists_of_except_bind_ok h
      obtain ⟨rfl, hlen⟩ := takePayload_ok hp
      exact ⟨o, rfl, hlen, hdec⟩

/-- DRV is a 4-bit field. -/
theorem driveOk_sixteen (d : DriveIx) : driveOk 16 d = true := decide_eq_true d.isLt

theorem SegRef.ok_sixteen (r : SegRef) : r.ok 16 = true := by
  cases r with
  | buf b d => exact driveOk_sixteen d
  | _ => rfl

/-- IMM24 read as an integer is in its range (30_encoding.md R74). -/
theorem TxnFields.immOk_imm (f : TxnFields) : immOk f.imm = true := by
  have hlow : -2 ^ 23 ≤ f.imm24.toInt := BitVec.le_toInt f.imm24
  have hhigh : f.imm24.toInt < 2 ^ 23 := BitVec.toInt_lt (x := f.imm24)
  change immOk f.imm24.toInt = true
  simp only [immOk, Bool.and_eq_true, decide_eq_true_eq]
  omega

/-- Whatever an operation makes of the fields fits the word format. -/
theorem wf_of_decodeOp {f : TxnFields} {p : List Byte} {o : Op} {i : Instr} (hlen : p.length = payloadLen f o)
    (h : decodeOp f p o = .ok i) : i.wf 16 = true := by
  cases o with
  | busRd | busWr | mmGet | reset => cases h; rfl
  | segGet | segSet | segSize =>
    obtain ⟨r, -, rfl⟩ := exists_of_except_map_ok h
    simp [Instr.wf, r.ok_sixteen, f.immOk_imm]
  | segCopy =>
    obtain ⟨r, -, rfl⟩ := exists_of_except_map_ok h
    have hp : p.length < 2 ^ 16 := hlen.trans_lt f.addr16.isLt
    simp only [Instr.wf, r.ok_sixteen, f.immOk_imm, Bool.and_self, Bool.true_and, decide_eq_true_eq]
    omega
  | segAttach =>
    obtain ⟨b, -, hb⟩ := exists_of_except_bind_ok h
    split at hb
    · cases hb
    · cases hb
      obtain ⟨-, hhigh⟩ : -8388608 ≤ f.imm ∧ f.imm ≤ 8388607 := by simpa [immOk] using f.immOk_imm
      simp only [Instr.wf, driveOk_sixteen, Bool.true_and, decide_eq_true_eq]
      omega
  | drvShift | drvStep => cases h; simp [Instr.wf, driveOk_sixteen, f.immOk_imm]
  | drvSetImagetype =>
    obtain ⟨y, -, rfl⟩ := exists_of_except_map_ok h
    exact driveOk_sixteen f.drv
  | _ => cases h; exact driveOk_sixteen f.drv

/-- Settles O2: every field is in its range, so the encoder's word is read back. -/
theorem acceptedWordsReencode : Obligations.AcceptedWordsReencode := by
  unfold Obligations.AcceptedWordsReencode
  intro t i h
  obtain ⟨o, -, hlen, hdec⟩ := decode_ok h
  have hwf : i.wf 16 = true := wf_of_decodeOp hlen hdec
  exact ⟨hwf, decodeOfEncodeIsTheTransaction 16 i hwf⟩

/-! ## The fields an operation does not read -/

/-- Two sets of fields agree on those that the operation reads (30_encoding.md R78). -/
def AgreeOnFieldsRead (f g : TxnFields) (o : Op) : Prop := ∀ n ∈ o.fieldsRead, f.value n = g.value n

section agree
variable {f g : TxnFields} {o : Op}

theorem AgreeOnFieldsRead.sel (h : AgreeOnFieldsRead f g o) (hn : .sel ∈ o.fieldsRead) : f.sel = g.sel :=
  BitVec.eq_of_toNat_eq (h .sel hn)

theorem AgreeOnFieldsRead.drv (h : AgreeOnFieldsRead f g o) (hn : .drv ∈ o.fieldsRead) : f.drv = g.drv :=
  BitVec.eq_of_toNat_eq (h .drv hn)

theorem AgreeOnFieldsRead.addr16 (h : AgreeOnFieldsRead f g o) (hn : .addr16 ∈ o.fieldsRead) : f.addr16 = g.addr16 :=
  BitVec.eq_of_toNat_eq (h .addr16 hn)

theorem AgreeOnFieldsRead.data8 (h : AgreeOnFieldsRead f g o) (hn : .data8 ∈ o.fieldsRead) : f.data8 = g.data8 :=
  BitVec.eq_of_toNat_eq (h .data8 hn)

theorem AgreeOnFieldsRead.imm (h : AgreeOnFieldsRead f g o) (hn : .imm24 ∈ o.fieldsRead) : f.imm = g.imm :=
  congrArg BitVec.toInt (BitVec.eq_of_toNat_eq (h .imm24 hn))

end agree

theorem TxnFields.segRef_congr {f g : TxnFields} (hs : f.sel = g.sel) (hd : f.drv = g.drv) : f.segRef = g.segRef := by
  simp only [TxnFields.segRef, hs, hd]

theorem TxnFields.bufSel_congr {f g : TxnFields} (hs : f.sel = g.sel) : f.bufSel = g.bufSel := by
  simp only [TxnFields.bufSel, hs]

theorem payloadLen_congr {f g : TxnFields} {o : Op} (h : AgreeOnFieldsRead f g o) : payloadLen f o = payloadLen g o := by
  cases o with
  | segCopy => exact h .addr16 (by decide)
  | _ => rfl

/-- An operation's transaction depends only on the fields it reads. -/
theorem decodeOp_congr {f g : TxnFields} {o : Op} (h : AgreeOnFieldsRead f g o) (p : List Byte) :
    decodeOp f p o = decodeOp g p o := by
  cases o with
  | mmGet | reset => rfl
  | busRd => simp only [decodeOp, h.addr16 (by decide)]
  | busWr => simp only [decodeOp, h.addr16 (by decide), h.data8 (by decide)]
  | segGet | segCopy =>
    simp only [decodeOp, TxnFields.segRef_congr (h.sel (by decide)) (h.drv (by decide)), h.imm (by decide)]
  | segSet =>
    simp only [decodeOp, TxnFields.segRef_congr (h.sel (by decide)) (h.drv (by decide)), h.imm (by decide),
      h.data8 (by decide)]
  | segSize => simp only [decodeOp, TxnFields.segRef_congr (h.sel (by decide)) (h.drv (by decide))]
  | segAttach =>
    simp only [decodeOp, TxnFields.bufSel_congr (h.sel (by decide)), h.drv (by decide), h.imm (by decide)]
  | drvStepPhase => simp only [decodeOp, h.drv (by decide), h.addr16 (by decide)]
  | drvShift | drvStep => simp only [decodeOp, h.drv (by decide), h.imm (by decide)]
  | drvSetFlags => simp only [decodeOp, h.drv (by decide), h.data8 (by decide)]
  | drvSetImagetype => simp only [decodeOp, TxnFields.imageType, h.drv (by decide), h.data8 (by decide)]
  | _ => simp only [decodeOp, h.drv (by decide)]

/-- With SEL at Main, Aux or Rom a segment transaction does not see DRV (30_encoding.md R71). -/
theorem decodeOp_of_sel_le_two {f : TxnFields} {o : Op} (ho : o ∈ [Op.segGet, .segSet, .segCopy, .segSize, .segAttach])
    (hs : f.sel.toNat ≤ 2) (d : DriveIx) (p : List Byte) : decodeOp { f with drv := d } p o = decodeOp f p o := by
  have href : ({ f with drv := d } : TxnFields).segRef = f.segRef := by
    simp only [TxnFields.segRef]
    split <;> first | rfl | omega
  have hbuf : ∃ e, f.bufSel = .error e := by
    simp only [TxnFields.bufSel]
    split <;> first | exact ⟨_, rfl⟩ | omega
  have hsel : ({ f with drv := d } : TxnFields).bufSel = f.bufSel := rfl
  have himm : ({ f with drv := d } : TxnFields).imm = f.imm := rfl
  simp only [List.mem_cons, List.not_mem_nil, or_false] at ho
  rcases ho with rfl | rfl | rfl | rfl | rfl
  case inr.inr.inr.inr =>
    obtain ⟨e, he⟩ := hbuf
    simp only [decodeOp, hsel, he]
    rfl
  all_goals simp only [decodeOp, href, himm]

/-- The code of an ImageType is DATA8 modulo 4 (42_drive.md R136). -/
theorem TxnFields.imageType_congr {f g : TxnFields} (h : f.data8.toNat % 4 = g.data8.toNat % 4) :
    f.imageType = g.imageType := by
  have hbits : ∀ v : Byte, (v.extractLsb' 0 2).toNat = v.toNat % 4 := fun v => by simp [BitVec.extractLsb'_toNat]
  simp only [TxnFields.imageType, hbits, h]

end Sys2Proof

namespace Sys2Proof.Machine

/-- A bit below 4 is one of the low nibble. -/
theorem getLsbD_of_mod_eq {v w : Byte} (h : v.toNat % 16 = w.toNat % 16) {k : Nat} (hk : k < 4) :
    v.getLsbD k = w.getLsbD k := by
  have hbit : ∀ x : Byte, x.getLsbD k = (x.toNat % 2 ^ 4).testBit k := fun x => by
    rw [Nat.testBit_mod_two_pow]
    simp [BitVec.getLsbD, hk]
  rw [hbit, hbit, show (2 : Nat) ^ 4 = 16 from rfl, h]

/-- The flag write reads the low nibble of its byte (42_drive.md R133). -/
theorem Drive.setFlagByte_congr {v w : Byte} (h : v.toNat % 16 = w.toNat % 16) :
    Drive.setFlagByte v = Drive.setFlagByte w := by
  funext D
  simp only [Drive.setFlagByte, getLsbD_of_mod_eq h (by decide : 0 < 4), getLsbD_of_mod_eq h (by decide : 1 < 4),
    getLsbD_of_mod_eq h (by decide : 2 < 4), getLsbD_of_mod_eq h (by decide : 3 < 4)]

/-- Settles O3: the decoder depends on OP, RSV, the payload and the fields read, on DRV only where SEL names a buffer, and
on the two code bits of an ImageType. -/
theorem unreadFieldsAreIgnored : Obligations.UnreadFieldsAreIgnored := by
  unfold Obligations.UnreadFieldsAreIgnored
  refine ⟨fun t u hop hrsv hpay h => ?fields, fun t u o hop hrsv hpay ho hseg hsel h => ?drv, fun t => decode_of_rsv,
    fun s d v w h => ?flags, fun t u ht hu hrsv hpay hdrv hdata => ?imageType⟩
  case fields => exact decode_congr hop hrsv hpay fun o ho => ⟨payloadLen_congr (h o ho), decodeOp_congr (h o ho)⟩
  case drv =>
    refine decode_congr hop hrsv hpay fun o' ho' => ?_
    obtain rfl : o = o' := Option.some.inj (ho.symm.trans ho')
    have hagree : AgreeOnFieldsRead { unpack t.word with drv := (unpack u.word).drv } (unpack u.word) o := fun n hn => by
      by_cases hd : n = .drv
      · rw [hd]; rfl
      · rw [← h n hn hd]
        cases n <;> first | rfl | exact absurd rfl hd
    have hlen : payloadLen { unpack t.word with drv := (unpack u.word).drv } o = payloadLen (unpack t.word) o := by
      cases o <;> rfl
    refine ⟨hlen.symm.trans (payloadLen_congr hagree), fun p => ?_⟩
    rw [← decodeOp_of_sel_le_two hseg hsel, decodeOp_congr hagree]
  case flags =>
    show updateDrive d (Drive.setFlagByte v) s = updateDrive d (Drive.setFlagByte w) s
    rw [Drive.setFlagByte_congr h]
  case imageType =>
    refine decode_congr (ht.trans hu.symm) hrsv hpay fun o ho => ?_
    have hcode : opOfCode (unpack t.word).op = some .drvSetImagetype := by rw [ht]; rfl
    obtain rfl : Op.drvSetImagetype = o := Option.some.inj (hcode.symm.trans ho)
    exact ⟨rfl, fun p => by simp only [decodeOp, hdrv, TxnFields.imageType_congr hdata]⟩

end Sys2Proof.Machine

/-! # PROOFS: reserved encodings and the step (30_encoding.md R81, 60_exceptions.md R153, R154)

The decoder's rejections and the missing drives are the reserved encodings of R81 and the stray payloads of log 4; what a
step makes of them, of a malformed table and of a decoded transaction. -/

namespace Sys2Proof

/-- What the decoder answered gives no transaction that a machine of `n` drives runs. -/
def Unrunnable (n : Nat) : Except DecodeError Instr → Prop
  | .error _ => True
  | .ok i => ∃ d, i.drive? = some d ∧ n ≤ d.toNat

@[simp] theorem unrunnable_error (n : Nat) (e : DecodeError) : Unrunnable n (.error e) := trivial

@[simp] theorem unrunnable_ok (n : Nat) (i : Instr) :
    Unrunnable n (.ok i) ↔ ∃ d, i.drive? = some d ∧ n ≤ d.toNat := Iff.rfl

/-! ## Field by field -/

theorem unrunnable_segRef_map {n : Nat} {f : TxnFields} {g : SegRef → Instr} (hg : ∀ r, (g r).drive? = r.drive?) :
    Unrunnable n (f.segRef.map g) ↔
      5 ≤ f.sel.toNat ∨ ((f.sel.toNat = 3 ∨ f.sel.toNat = 4) ∧ n ≤ f.drv.toNat) := by
  unfold TxnFields.segRef
  split <;> simp_all [Except.map, SegRef.drive?]
  omega

theorem unrunnable_segAttach {n : Nat} {f : TxnFields} {p : List Byte} :
    Unrunnable n (decodeOp f p .segAttach) ↔
      5 ≤ f.sel.toNat ∨ f.sel.toNat ≤ 2 ∨ ((f.sel.toNat = 3 ∨ f.sel.toNat = 4) ∧ n ≤ f.drv.toNat) ∨ f.imm < 0 := by
  simp only [decodeOp, TxnFields.bufSel]
  split <;> simp_all [Except.bind]
  · split <;> simp_all [Instr.drive?]
  · split <;> simp_all [Instr.drive?]
  · omega

theorem unrunnable_imageType {n : Nat} {f : TxnFields} {p : List Byte} :
    Unrunnable n (decodeOp f p .drvSetImagetype) ↔ f.data8.toNat % 4 = 3 ∨ n ≤ f.drv.toNat := by
  have hbits : (f.data8.extractLsb' 0 2).toNat = f.data8.toNat % 4 := by simp [BitVec.extractLsb'_toNat]
  simp only [decodeOp, TxnFields.imageType, hbits]
  split <;> simp_all [Except.map, Instr.drive?]
  omega

/-- The payload check comes before the operation's own fields. -/
theorem unrunnable_decode_of_op {n : Nat} {t : Txn} {o : Op} (hr : (unpack t.word).rsv ≠ 1)
    (ho : opOfCode (unpack t.word).op = some o) :
    Unrunnable n (decode t) ↔
      t.payload.length ≠ payloadLen (unpack t.word) o ∨ Unrunnable n (decodeOp (unpack t.word) t.payload o) := by
  rw [decode_of_op hr ho]
  by_cases hlen : t.payload.length = payloadLen (unpack t.word) o
  · rw [← hlen, takePayload_length]
    simp [Except.bind]
  · cases hp : takePayload (payloadLen (unpack t.word) o) t.payload with
    | error e => simp [hlen, Except.bind]
    | ok q => exact absurd (takePayload_ok hp).2 hlen

/-- An OP value that is not in the opcode map lies outside its four ranges (30_encoding.md R78). -/
theorem code_ranges_of_opOfCode_none {c : BitVec 8} (h : opOfCode c = none) :
    ¬ (0x01 ≤ c.toNat ∧ c.toNat ≤ 0x03) ∧ ¬ (0x10 ≤ c.toNat ∧ c.toNat ≤ 0x14) ∧
      ¬ (0x20 ≤ c.toNat ∧ c.toNat ≤ 0x28) ∧ c.toNat ≠ 0xF0 := by
  have hne : ∀ o ∈ Op.all, o.code.toNat ≠ c.toNat := fun o ho hc =>
    List.find?_eq_none.mp h o ho (beq_iff_eq.mpr (BitVec.eq_of_toNat_eq hc))
  simp only [Op.all, List.forall_mem_cons, Op.code, BitVec.reduceToNat] at hne
  omega

/-- `reservedTxn` or `strayTxn`, of the fields of a word and the bytes after it. -/
def RefusedFields (n : Nat) (f : TxnFields) (p : List Byte) : Prop :=
  let isSeg := 0x10 ≤ f.op.toNat ∧ f.op.toNat ≤ 0x14
  let isDrv := 0x20 ≤ f.op.toNat ∧ f.op.toNat ≤ 0x28
  ((¬ (0x01 ≤ f.op.toNat ∧ f.op.toNat ≤ 0x03) ∧ ¬ isSeg ∧ ¬ isDrv ∧ f.op.toNat ≠ 0xF0) ∨
    f.rsv.toNat = 1 ∨
    (isSeg ∧ 5 ≤ f.sel.toNat) ∨
    (f.op.toNat = 0x14 ∧ f.sel.toNat ≤ 2) ∨
    ((isDrv ∨ (isSeg ∧ (f.sel.toNat = 3 ∨ f.sel.toNat = 4))) ∧ n ≤ f.drv.toNat) ∨
    (f.op.toNat = 0x14 ∧ f.imm < 0) ∨
    (f.op.toNat = 0x28 ∧ f.data8.toNat % 4 = 3) ∨
    (f.op.toNat = 0x12 ∧ p.length < f.addr16.toNat)) ∨
  ((f.op.toNat = 0x12 ∧ f.addr16.toNat < p.length) ∨ (f.op.toNat ≠ 0x12 ∧ p ≠ []))

theorem refusedFields_iff (n : Nat) (t : Txn) :
    RefusedFields n (unpack t.word) t.payload ↔ Machine.reservedTxn n t ∨ Machine.strayTxn t := Iff.rfl

/-- Where OP is in the map and RSV is clear, each operation refuses what R81 and log 4 list for it. -/
theorem unrunnable_decodeOp_iff {n : Nat} {f : TxnFields} {p : List Byte} {o : Op} (hop : f.op.toNat = o.code.toNat)
    (hr : f.rsv.toNat ≠ 1) :
    (p.length ≠ payloadLen f o ∨ Unrunnable n (decodeOp f p o)) ↔ RefusedFields n f p := by
  unfold RefusedFields
  rw [hop]
  cases o with
  | busRd | busWr | mmGet | reset => simp [hr, Op.code, payloadLen, decodeOp, Instr.drive?]
  | segGet | segSet | segSize =>
    rw [decodeOp, unrunnable_segRef_map fun r => rfl]
    simp [hr, Op.code, payloadLen]
    tauto
  | segCopy =>
    rw [decodeOp, unrunnable_segRef_map fun r => rfl]
    simp [hr, Op.code, payloadLen]
    omega
  | segAttach =>
    rw [unrunnable_segAttach]
    simp [hr, Op.code, payloadLen]
    tauto
  | drvSetImagetype =>
    rw [unrunnable_imageType]
    simp [hr, Op.code, payloadLen]
    tauto
  | _ =>
    simp [hr, Op.code, payloadLen, decodeOp, Instr.drive?]
    tauto

/-- The rejections of the decoder and the missing drives are the reserved encodings of 30_encoding.md R81, with the stray
payloads of log 4. -/
theorem unrunnable_decode_iff (n : Nat) (t : Txn) :
    Unrunnable n (decode t) ↔ Machine.reservedTxn n t ∨ Machine.strayTxn t := by
  rw [← refusedFields_iff]
  by_cases hr : (unpack t.word).rsv = 1
  · have hbit : (unpack t.word).rsv.toNat = 1 := congrArg BitVec.toNat hr
    rw [decode_of_rsv hr]
    exact iff_of_true trivial (.inl (.inr (.inl hbit)))
  · cases ho : opOfCode (unpack t.word).op with
    | none =>
      have hdec : decode t = .error .reservedOp := by simp only [decode, hr, ho, if_false]
      rw [hdec]
      exact iff_of_true trivial (.inl (.inl (code_ranges_of_opOfCode_none ho)))
    | some o =>
      have hbit : (unpack t.word).rsv.toNat ≠ 1 := fun h => hr (BitVec.eq_of_toNat_eq h)
      rw [unrunnable_decode_of_op hr ho]
      exact unrunnable_decodeOp_iff (congrArg BitVec.toNat (code_of_opOfCode ho).symm) hbit

end Sys2Proof

namespace Sys2Proof.Machine

/-! ## The cases of a step -/

theorem step_of_table_malformed {s : State} (hT : tableOk s.cfg.switchTable = false) :
    step s = .refused .malformedSwitchTable := by
  simp only [step, hT, Bool.false_eq_true, if_false]

/-- No transaction runs under a malformed table (30_encoding.md R85). -/
theorem tableOk_of_step_next {s t : State} (h : step s = .next t) : tableOk s.cfg.switchTable = true := by
  by_contra hT
  rw [step_of_table_malformed (Bool.not_eq_true _ ▸ hT)] at h
  cases h

theorem step_of_nil {s : State} (hT : tableOk s.cfg.switchTable = true) (hp : s.pending = []) : step s = idle s := by
  simp only [step, hT, if_true, hp]

theorem step_of_decode_ok {s : State} {t : Txn} {rest : List Txn} {i : Instr} (hT : tableOk s.cfg.switchTable = true)
    (hp : s.pending = t :: rest) (hd : decode t = .ok i) : step s = exec i { s with pending := rest } := by
  simp only [step, hT, if_true, hp, hd]

theorem step_of_decode_error {s : State} {t : Txn} {rest : List Txn} {e : DecodeError}
    (hT : tableOk s.cfg.switchTable = true) (hp : s.pending = t :: rest) (hd : decode t = .error e) :
    step s = refuse (.reservedEncoding e) { s with pending := rest } := by
  simp only [step, hT, if_true, hp, hd]

/-- A transaction that the decoder rejects, or whose drive is missing, is refused. -/
theorem step_of_unrunnable {s : State} {t : Txn} {rest : List Txn} (hT : tableOk s.cfg.switchTable = true)
    (hp : s.pending = t :: rest) (h : Unrunnable s.drives.length (decode t)) :
    ∃ reason, step s = refuse reason { s with pending := rest } := by
  cases hd : decode t with
  | error e => exact ⟨_, step_of_decode_error hT hp hd⟩
  | ok i =>
    rw [hd] at h
    obtain ⟨d, hi, hn⟩ := h
    exact ⟨_, (step_of_decode_ok hT hp hd).trans (exec_of_missing (s := { s with pending := rest }) hi hn)⟩

/-- Settles O4: a reserved encoding is unrunnable, and what is unrunnable is refused. -/
theorem reservedEncodingsAreRefused : Obligations.ReservedEncodingsAreRefused := by
  unfold Obligations.ReservedEncodingsAreRefused
  intro s t rest hT hp hres
  obtain ⟨reason, hstep⟩ := step_of_unrunnable hT hp ((unrunnable_decode_iff _ t).mpr (.inl hres))
  refine ⟨fun hf => ?_, fun hf => ?_⟩
  · rw [hstep, refuse_of_none (s := { s with pending := rest }) hf]
    rfl
  · obtain ⟨r, hr⟩ := Option.ne_none_iff_exists'.mp hf
    exact ⟨reason, by rw [hstep, refuse_of_some (s := { s with pending := rest }) hr]⟩

/-- A step with a next state finds no fault, and idles, or takes a transaction and marks the run where it is unrunnable and
keeps the mark where it is not. -/
theorem step_next_mark {s t : State} (hT : tableOk s.cfg.switchTable = true) (h : step s = .next t) :
    (s.pending = [] ∧ t = s) ∨ ∃ u rest, s.pending = u :: rest ∧
      ((Unrunnable s.drives.length (decode u) ∧ t.refused = true) ∨
        (¬ Unrunnable s.drives.length (decode u) ∧ t.refused = s.refused)) := by
  cases hp : s.pending with
  | nil =>
    rw [step_of_nil hT hp] at h
    have hk : (.next s : Host.Outcome State Fault Refusal) = .next t := (running_next h).2
    cases hk
    exact .inl ⟨rfl, rfl⟩
  | cons u rest =>
    refine .inr ⟨u, rest, rfl, ?_⟩
    by_cases hu : Unrunnable s.drives.length (decode u)
    · obtain ⟨reason, hstep⟩ := step_of_unrunnable hT hp hu
      obtain ⟨-, rfl⟩ := refuse_next (hstep.symm.trans h)
      exact .inl ⟨hu, rfl⟩
    · refine .inr ⟨hu, ?_⟩
      cases hd : decode u with
      | error e => exact absurd (hd ▸ trivial) hu
      | ok i =>
        rw [hd] at hu
        rw [step_of_decode_ok hT hp hd] at h
        obtain ⟨-, ⟨d, hi, hn, -⟩ | ⟨-, hmark⟩⟩ := exec_next_mark h
        · exact absurd ⟨d, hi, hn⟩ hu
        · exact hmark

/-- A refusal under a well-formed table is that of an unrunnable transaction in a faulted state. -/
theorem step_refused {s : State} {r : Refusal} (hT : tableOk s.cfg.switchTable = true) (h : step s = .refused r) :
    s.fault ≠ none ∧ r ≠ .malformedSwitchTable ∧
      ∃ u rest, s.pending = u :: rest ∧ Unrunnable s.drives.length (decode u) := by
  cases hp : s.pending with
  | nil =>
    rw [step_of_nil hT hp] at h
    exact absurd h (running_ne_refused (by simp) r)
  | cons u rest =>
    cases hd : decode u with
    | error e =>
      rw [step_of_decode_error hT hp hd] at h
      obtain ⟨hf, rfl⟩ := refuse_refused h
      exact ⟨hf, by simp, u, rest, rfl, by rw [hd]; trivial⟩
    | ok i =>
      rw [step_of_decode_ok hT hp hd] at h
      obtain ⟨d, hi, hn, hf, rfl⟩ := exec_refused h
      exact ⟨hf, by simp, u, rest, rfl, by rw [hd]; exact ⟨d, hi, hn⟩⟩

/-- Settles O5: the unrunnable transactions are the reserved and the stray ones, and they alone set the mark. -/
theorem onlyReservedEncodingsAreRefused : Obligations.OnlyReservedEncodingsAreRefused := by
  unfold Obligations.OnlyReservedEncodingsAreRefused
  simp only [← unrunnable_decode_iff]
  refine fun s hT => ⟨fun t h => ?mark, fun r h => ?refusal⟩
  case mark =>
    obtain ⟨hp, rfl⟩ | ⟨u, rest, hp, ⟨hu, ht⟩ | ⟨hu, ht⟩⟩ := step_next_mark hT h
    · simp [hp]
    · exact iff_of_true ht (.inr ⟨u, rest, hp, hu⟩)
    · rw [ht, hp]
      refine ⟨.inl, fun hs => hs.resolve_right ?_⟩
      rintro ⟨u', rest', hcons, hu'⟩
      cases hcons
      exact hu hu'
  case refusal =>
    obtain ⟨hf, -, hu⟩ := step_refused hT h
    exact ⟨hf, hu⟩

/-- Settles O7: with a well-formed table a step is the meaning of the decoded transaction, or idles. -/
theorem stepRunsTheDecodedTransaction : Obligations.StepRunsTheDecodedTransaction := by
  unfold Obligations.StepRunsTheDecodedTransaction
  refine ⟨fun s t rest i => step_of_decode_ok, fun s nbits w i hT hd => ?word, fun s hT hp hf => ?idle⟩
  case word =>
    have hok : decode (txnOfTableWord nbits w) = .ok i := by
      unfold decodeTableWord at hd
      split at hd
      · next j hj => rw [hj, Option.some.inj hd]
      · cases hd
    exact step_of_decode_ok (s := s.withFetchWord nbits w) hT rfl hok
  case idle => rw [step_of_nil hT hp, idle, running_of_none hf]

/-! ## The switch table -/

theorem trapOf_eq_none {v : Byte} : trapOf v = none ↔ v.toNat % 4 = 0 := by
  obtain h | h | h | h : v.toNat % 4 = 0 ∨ v.toNat % 4 = 1 ∨ v.toNat % 4 = 2 ∨ v.toNat % 4 = 3 := by omega
  all_goals simp [trapOf, h]

/-- A row is malformed by a trap below 0xC000 or by a descriptor of 32 or more (30_encoding.md R85). -/
theorem switchRowOk_eq_false {r : SwitchRow} :
    switchRowOk r = false ↔
      (r.addr.toNat < 0xC000 ∧ (r.rd.toNat % 4 ≠ 0 ∨ r.wr.toNat % 4 ≠ 0)) ∨ 32 ≤ r.rd.toNat ∨ 32 ≤ r.wr.toNat := by
  rw [← Bool.not_eq_true]
  simp only [switchRowOk, descriptorOk, Bool.and_eq_true, Bool.or_eq_true, decide_eq_true_eq, Option.isNone_iff_eq_none,
    trapOf_eq_none]
  omega

theorem tableOk_eq_false {table : List SwitchRow} : tableOk table = false ↔ ∃ r ∈ table, switchRowOk r = false := by
  simp [tableOk]

/-- Settles O8: only the check of the table refuses so, and it fails where a row is malformed. -/
theorem malformedTableRefusesEveryStep : Obligations.MalformedTableRefusesEveryStep := by
  unfold Obligations.MalformedTableRefusesEveryStep
  intro s
  simp only [← switchRowOk_eq_false, ← tableOk_eq_false]
  refine ⟨fun h => ?_, step_of_table_malformed⟩
  by_contra hT
  obtain ⟨-, hne, -⟩ := step_refused (Bool.not_eq_false _ ▸ hT) h
  exact hne rfl

/-- Settles O6: the decoder evaluates on the seven words. -/
theorem exampleWordsDecode : Obligations.ExampleWordsDecode := by
  unfold Obligations.ExampleWordsDecode
  decide

/-! ## The faulted state -/

/-- A next state comes only from a state without a fault. -/
theorem step_next_fault {s t : State} (h : step s = .next t) : s.fault = none := by
  have hT : tableOk s.cfg.switchTable = true := tableOk_of_step_next h
  cases hp : s.pending with
  | nil => exact (running_next ((step_of_nil hT hp).symm.trans h)).1
  | cons u rest =>
    cases hd : decode u with
    | error e => exact (refuse_next ((step_of_decode_error hT hp hd).symm.trans h)).1
    | ok i => exact (exec_next_mark ((step_of_decode_ok hT hp hd).symm.trans h)).1

theorem running_fault {s : State} {k : Host.Outcome State Fault Refusal} (hk : ∀ q, k ≠ .fault q) {q : Fault}
    (h : running s k = .fault q) : ∃ r, s.fault = some r ∧ q = .halted r := by
  unfold running at h
  split at h
  · next r hr => exact ⟨r, hr, by cases h; rfl⟩
  · exact absurd h (hk q)

theorem refuse_ne_fault {reason : Refusal} {s : State} (q : Fault) : refuse reason s ≠ .fault q := by
  unfold refuse
  split <;> simp

theorem nextOrFatal_ne_fault {s : State} {r : FaultRecord} {o : Option State} (q : Fault) :
    nextOrFatal s r o ≠ .fault q := by
  cases o <;> simp [nextOrFatal]

theorem withDrive_fault {d : DriveIx} {s : State} {k : Drive → Host.Outcome State Fault Refusal}
    (hk : ∀ D q, k D ≠ .fault q) {q : Fault} (h : withDrive d s k = .fault q) :
    ∃ r, s.fault = some r ∧ q = .halted r := by
  unfold withDrive at h
  split at h
  · exact absurd h (refuse_ne_fault q)
  · exact running_fault (hk _) h

theorem withSeg_fault {r : SegRef} {s : State} {k : Host.Outcome State Fault Refusal} (hk : ∀ q, k ≠ .fault q) {q : Fault}
    (h : withSeg r s k = .fault q) : ∃ r, s.fault = some r ∧ q = .halted r := by
  cases r with
  | buf b d => exact withDrive_fault (fun _ => hk) h
  | _ => exact running_fault hk h

/-- A transaction stops only in a faulted state. -/
theorem exec_fault {i : Instr} {s : State} {q : Fault} (h : exec i s = .fault q) :
    ∃ r, s.fault = some r ∧ q = .halted r := by
  cases i with
  | busRd _ | busWr _ _ =>
    refine running_fault (fun q => ?_) h
    split <;> first | (simp; done) | exact nextOrFatal_ne_fault q
  | mmGet | reset => exact running_fault (by simp) h
  | segGet _ _ | segSet _ _ _ => exact withSeg_fault nextOrFatal_ne_fault h
  | segCopy _ _ _ => exact withSeg_fault (fun q => by split <;> simp) h
  | segSize _ => exact withSeg_fault (by simp) h
  | _ => exact withDrive_fault (by simp) h

theorem Instr.drive_lt_of_wf {i : Instr} {n : Nat} (h : i.wf n = true) {d : DriveIx} (hi : i.drive? = some d) :
    d.toNat < n := by
  have seg : ∀ {r : SegRef}, r.drive? = some d → r.ok n = true → d.toNat < n := fun {r} hr hok => by
    refine Nat.lt_of_not_le fun hn => ?_
    rw [segRef_ok_eq_false.mpr ⟨d, hr, hn⟩] at hok
    cases hok
  cases i with
  | busRd _ | busWr _ _ | mmGet | reset => cases hi
  | segGet r _ | segSet r _ _ | segCopy r _ _ | segSize r =>
    simp only [Instr.wf, Bool.and_eq_true] at h
    exact seg hi (by tauto)
  | _ =>
    cases hi
    simp only [Instr.wf, driveOk, Bool.and_eq_true, decide_eq_true_eq] at h
    tauto

/-- Settles O50: a fault excludes a next state, a transaction whose drive exists is not refused, and one whose drive is
missing is. -/
theorem faultedStateHasNoStep : Obligations.FaultedStateHasNoStep := by
  unfold Obligations.FaultedStateHasNoStep
  refine ⟨fun s r hf t h => ?noStep, fun s r i hf hwf => ?halted, fun s r d b k hf hd => ?missing⟩
  case noStep =>
    have := step_next_fault h
    simp [hf] at this
  case halted =>
    cases h : exec i s with
    | next t =>
      have := (exec_next_mark h).1
      simp [hf] at this
    | refused q =>
      obtain ⟨d, hi, hn, -⟩ := exec_refused h
      exact absurd (Instr.drive_lt_of_wf hwf hi) (Nat.not_lt.mpr hn)
    | fault q =>
      obtain ⟨r', hr', rfl⟩ := exec_fault h
      rw [Option.some.inj (hf.symm.trans hr')]
  case missing =>
    have refused (i : Instr) (hi : i.drive? = some d) : exec i s = .refused (.driveOutOfRange d) := by
      rw [exec_of_missing hi hd, refuse_of_some hf]
    exact ⟨refused (.segGet (.buf b d) k) rfl, refused (.drvPosition d) rfl⟩

end Sys2Proof.Machine

/-! # PROOFS: what a transaction can do (10_state.md R44, 60_exceptions.md R147, R154)

The kinds of effect a transaction can have on the state, said once for all 18 of them, and what follows for faults and for
completion. -/

namespace Sys2Proof.Machine

/-! ## The effects -/

/-- `h` is `g` after a store: the segment with other bytes at the addresses `p`, and still in canonical form. -/
structure Segment.StoredAt (g h : Segment) (p : Nat → Prop) : Prop where
  len : h.len = g.len
  seed : h.seed = g.seed
  wf : g.wf = true → h.wf = true
  read : ∀ a, ¬ p a → h.read a = g.read a

theorem Segment.storedAt_write {g : Segment} {i : Nat} (v : Byte) (hi : i < g.len) {p : Nat → Prop} (hp : p i) :
    g.StoredAt (g.write i v) p where
  len := Segment.len_write g i v
  seed := Segment.seed_write g i v
  wf hg := Segment.wf_write v hg hi
  read a ha := by
    have hne : a ≠ i := fun h => ha (h ▸ hp)
    rw [Segment.read_write, if_neg hne]

theorem Segment.storedAt_writeBytes {g : Segment} {i : Nat} {bs : List Byte} (hi : i + bs.length ≤ g.len) {p : Nat → Prop}
    (hp : ∀ a, i ≤ a → a < i + bs.length → p a) : g.StoredAt (g.writeBytes i bs) p where
  len := Segment.len_writeBytes g i bs
  seed := Segment.seed_writeBytes g i bs
  wf hg := Segment.wf_writeBytes hg hi
  read a ha := by
    have hout : ¬ (i ≤ a ∧ a < i + bs.length) := fun h => ha (hp a h.1 h.2)
    rw [Segment.read_writeBytes, if_neg hout]

/-- `E` is `D` after a drive transaction: its head or its settings moved, its buffers as they were. -/
structure Drive.Moved (D E : Drive) : Prop where
  data : E.data = D.data
  image : E.image = D.image
  ok : D.Ok → E.Ok

/-- The transaction stores to segment `r` (10_state.md R44). -/
def WritesSegment (i : Instr) (r : SegRef) : Prop :=
  (∃ a v b, i = .busWr a v ∧ r = Bank.ref b) ∨ (∃ k v, i = .segSet r k v) ∨ ∃ k bs, i = .segCopy r k bs

/-- The transaction is one of the five that write drive `d` (10_state.md R44). -/
def WritesDrive (i : Instr) (d : DriveIx) : Prop :=
  (∃ a, i = .drvStepPhase d a) ∨ (∃ k, i = .drvShift d k) ∨ (∃ k, i = .drvStep d k) ∨ (∃ v, i = .drvSetFlags d v) ∨
    ∃ y, i = .drvSetImagetype d y

/-- A bus access to `a` can miss the end of its segment, which the constraints of 00_scope.md R7 exclude. -/
def BusOutOfBounds (s : State) (a : Addr) : Prop :=
  (a.toNat < 0xC000 ∧ (s.main.len ≤ a.toNat ∨ s.aux.len ≤ a.toNat)) ∨ s.rom.len < romSize

/-- The next states of a transaction, by the kind of its effect. -/
inductive Effect (i : Instr) (s : State) : State → Prop
  | refuses {d : DriveIx} (hi : i.drive? = some d) (hd : s.drives.length ≤ d.toNat) : Effect i s s.markRefused
  | answers (r : Response) : Effect i s (s.respond r)
  | portFaults {r : SegRef} {k : Int} (q : FaultRecord) (hi : i = .segGet r k ∨ ∃ v, i = .segSet r k v)
      (hr : r.ok s.drives.length = true) (hk : k < 0 ∨ (s.segLen r : Int) ≤ k) : Effect i s (s.raiseFatal q)
  | busFaults {a : Addr} (q : FaultRecord) (hi : i = .busRd a ∨ ∃ v, i = .busWr a v) (hb : BusOutOfBounds s a) :
      Effect i s (s.raiseFatal q)
  | draws {a : Addr} (v : Byte) (hi : i = .busRd a) : Effect i s (s.drawn.respond (.byte v))
  | traps {a : Addr} {k : Trap} (r : Response) (hi : RunsTrap i s a k) :
      Effect i s ({ s with memMode := (runTrap k s.memMode).2 }.respond r)
  | presents {a : Addr} {v : Byte} (hi : i = .busWr a v) : Effect i s (s.presentExt a v)
  | stores {r : SegRef} {g h : Segment} (p : Response) (hi : WritesSegment i r) (hg : s.segOf r = some g)
      (hw : g.StoredAt h (storesTo i s r)) : Effect i s ((s.setSeg r h).respond p)
  | moves {d : DriveIx} {D E : Drive} (hi : WritesDrive i d) (hD : s.drives[d.toNat]? = some D) (hE : D.Moved E) :
      Effect i s ((s.setDrive d E).respond .done)
  | attaches {b : BufSel} {d : DriveIx} {n : Nat} {D : Drive} (hi : i = .segAttach b d n)
      (hD : s.drives[d.toNat]? = some D) :
      Effect i s ((s.drawn.setDrive d (D.setBuf b (Segment.fresh n s.draws))).respond .done)
  | creates (hi : i = .reset) : Effect i s (s.create.respond .done)

/-! ## Every transaction has one of them -/

/-- A Rom cell that a read resolves to lies below 0x4000. -/
theorem romCell_of_resolveRead {c : Config} {a : Addr} {m : Byte} {i : Nat} (h : resolveRead c a m = .rom i) :
    i < romSize := by
  rcases resolveRead_cases c a m with ⟨-, h'⟩ | ⟨k, -, -, h'⟩ | ⟨-, -, h' | h' | ⟨h', hlt⟩⟩ <;> rw [h'] at h
  case inr.inr.inr.inr => exact ReadTarget.rom.inj h ▸ hlt
  all_goals cases h

/-- A RAM cell that a read resolves to is the address itself, below 0xC000. -/
theorem ramCell_of_resolveRead {c : Config} {a : Addr} {m : Byte} {b : Bank} {i : Nat}
    (h : resolveRead c a m = .ram b i) : i = a.toNat ∧ a.toNat < 0xC000 := by
  rcases resolveRead_cases c a m with ⟨hlt, h'⟩ | ⟨k, -, -, h'⟩ | ⟨-, -, h' | h' | ⟨h', -⟩⟩ <;> rw [h'] at h <;> cases h
  exact ⟨rfl, hlt⟩

theorem ramCell_of_resolveWrite {c : Config} {a : Addr} {m : Byte} {b : Bank} {i : Nat}
    (h : resolveWrite c a m = .ram b i) : i = a.toNat ∧ a.toNat < 0xC000 := by
  rcases resolveWrite_cases c a m with ⟨hlt, h'⟩ | ⟨k, -, -, h'⟩ | ⟨-, -, h' | h'⟩ <;> rw [h'] at h <;> cases h
  exact ⟨rfl, hlt⟩

theorem busOutOfBounds_of_ram {s : State} {a : Addr} {b : Bank} (ha : a.toNat < 0xC000) (h : s.segLen b.ref ≤ a.toNat) :
    BusOutOfBounds s a := by
  cases b with
  | main => exact .inl ⟨ha, .inl h⟩
  | aux => exact .inl ⟨ha, .inr h⟩

theorem Drive.moved_step (off : Int) (D : Drive) : D.Moved (D.step off) := ⟨rfl, rfl, fun h => h.step off⟩

theorem Drive.moved_shift (off : Int) (D : Drive) : D.Moved (D.shift off) := by
  refine ⟨?_, ?_, fun h => h.shift off⟩ <;>
  · cases hl : D.locked with
    | true => rw [Drive.shift_of_locked off hl]
    | false => rw [Drive.shift_of_unlocked off hl]

theorem Drive.moved_stepPhase (a : Addr) (D : Drive) : D.Moved (D.stepPhase a) := by
  refine ⟨?_, ?_, fun h => h.stepPhase a⟩ <;>
  · cases hp : phaseDecode a with
    | none => rw [Drive.stepPhase_of_none hp]
    | some p => rw [Drive.stepPhase_of_some hp]; rfl

theorem Drive.moved_setFlagByte (v : Byte) (D : Drive) : D.Moved (D.setFlagByte v) := ⟨rfl, rfl, id⟩

theorem Drive.moved_setImageType (y : ImageType) (D : Drive) : D.Moved { D with imageType := y } := ⟨rfl, rfl, id⟩

/-- Each of the five transactions that write a drive updates it by a move. -/
theorem exec_eq_updateDrive {i : Instr} {d : DriveIx} (hi : WritesDrive i d) :
    ∃ f : Drive → Drive, (∀ D : Drive, D.Moved (f D)) ∧ ∀ s, exec i s = updateDrive d f s := by
  obtain ⟨a, rfl⟩ | ⟨off, rfl⟩ | ⟨off, rfl⟩ | ⟨v, rfl⟩ | ⟨y, rfl⟩ := hi
  · exact ⟨_, Drive.moved_stepPhase a, fun _ => rfl⟩
  · exact ⟨_, Drive.moved_shift off, fun _ => rfl⟩
  · exact ⟨_, Drive.moved_step off, fun _ => rfl⟩
  · exact ⟨_, Drive.moved_setFlagByte v, fun _ => rfl⟩
  · exact ⟨_, Drive.moved_setImageType y, fun _ => rfl⟩

theorem effect_of_writesDrive {i : Instr} {d : DriveIx} {s t : State} (hd : i.drive? = some d) (hi : WritesDrive i d)
    (h : exec i s = .next t) : Effect i s t := by
  obtain ⟨f, hmoved, hexec⟩ := exec_eq_updateDrive hi
  obtain ⟨-, ⟨hn, rfl⟩ | ⟨D, hD, rfl⟩⟩ := updateDrive_next ((hexec s).symm.trans h)
  · exact .refuses hd hn
  · exact .moves hi hD (hmoved D)

theorem effect_reportDrive {i : Instr} {d : DriveIx} {f : Drive → Response} {s t : State} (hd : i.drive? = some d)
    (h : reportDrive d f s = .next t) : Effect i s t := by
  obtain ⟨-, ⟨hn, rfl⟩ | ⟨D, -, rfl⟩⟩ := reportDrive_next h
  · exact .refuses hd hn
  · exact .answers _

/-- A segment transaction whose drive is missing is refused. -/
theorem effect_of_segRef_missing {i : Instr} {s : State} {r : SegRef} (hi : i.drive? = r.drive?)
    (hr : r.ok s.drives.length = false) : Effect i s s.markRefused := by
  obtain ⟨d, hd, hn⟩ := segRef_ok_eq_false.mp hr
  exact .refuses (hi.trans hd) hn

theorem effect_busRd {a : Addr} {s t : State} (h : execBusRd a s = .next t) : Effect (.busRd a) s t := by
  obtain ⟨-, ⟨_, _, _, _, _, rfl, -⟩ | ⟨r, i, hi, rfl, hr⟩ | ⟨k, hr, rfl⟩ | ⟨v, rfl⟩⟩ := execBusRd_next h
  · exact .answers _
  · refine .busFaults _ (.inl rfl) ?_
    rcases hr with ⟨hres, rfl⟩ | ⟨b, hres, rfl⟩
    · exact .inr (Nat.lt_of_le_of_lt hi (romCell_of_resolveRead hres))
    · obtain ⟨rfl, ha⟩ := ramCell_of_resolveRead hres
      exact busOutOfBounds_of_ram ha hi
  · exact .traps _ (.inl ⟨rfl, hr⟩)
  · exact .draws v rfl

theorem effect_busWr {a : Addr} {v : Byte} {s t : State} (h : execBusWr a v s = .next t) : Effect (.busWr a v) s t := by
  obtain ⟨-, ⟨b, i, g, hres, hg, hi, rfl⟩ | ⟨b, i, hres, hi, rfl⟩ | ⟨k, hr, rfl⟩ | ⟨-, rfl⟩ | ⟨-, rfl⟩⟩ :=
    execBusWr_next h
  · exact .stores _ (.inl ⟨a, v, b, rfl, rfl⟩) hg (Segment.storedAt_write v hi ⟨b, hres, rfl⟩)
  · obtain ⟨rfl, ha⟩ := ramCell_of_resolveWrite hres
    exact .busFaults _ (.inr ⟨v, rfl⟩) (busOutOfBounds_of_ram ha hi)
  · exact .traps _ (.inr ⟨v, rfl, hr⟩)
  · exact .presents rfl
  · exact .answers _

theorem effect_segGet {r : SegRef} {k : Int} {s t : State} (h : execSegGet r k s = .next t) :
    Effect (.segGet r k) s t := by
  obtain ⟨-, ⟨hr, rfl⟩ | ⟨hr, ⟨g, -, -, -, rfl⟩ | ⟨hk, rfl⟩⟩⟩ := execSegGet_next h
  · exact effect_of_segRef_missing rfl hr
  · exact .answers _
  · exact .portFaults _ (.inl rfl) hr hk

theorem effect_segSet {r : SegRef} {k : Int} {v : Byte} {s t : State} (h : execSegSet r k v s = .next t) :
    Effect (.segSet r k v) s t := by
  obtain ⟨-, ⟨hr, rfl⟩ | ⟨hr, ⟨g, hg, h0, h1, rfl⟩ | ⟨hk, rfl⟩⟩⟩ := execSegSet_next h
  · exact effect_of_segRef_missing rfl hr
  · have hstored : storesTo (.segSet r k v) s r k.toNat := ⟨rfl, by omega⟩
    exact .stores _ (.inr (.inl ⟨k, v, rfl⟩)) hg (Segment.storedAt_write v (by omega) hstored)
  · exact .portFaults _ (.inr ⟨v, rfl⟩) hr hk

theorem effect_segCopy {r : SegRef} {start : Int} {bs : List Byte} {s t : State} (h : execSegCopy r start bs s = .next t) :
    Effect (.segCopy r start bs) s t := by
  obtain ⟨-, ⟨hr, rfl⟩ | ⟨-, ⟨-, rfl⟩ | ⟨h0, h1, ⟨g, hg, rfl⟩ | ⟨-, rfl⟩⟩⟩⟩ := execSegCopy_next h
  · exact effect_of_segRef_missing rfl hr
  · exact .answers _
  · have hlen : s.segLen r = g.len := State.segLen_of_some hg
    refine .stores _ (.inr (.inr ⟨start, bs, rfl⟩)) hg (Segment.storedAt_writeBytes (by omega) fun a ha hlt => ?_)
    exact ⟨rfl, by omega, by omega, h1⟩
  · exact .answers _

theorem exec_effect {i : Instr} {s t : State} (h : exec i s = .next t) : Effect i s t := by
  cases i with
  | busRd a => exact effect_busRd h
  | busWr a v => exact effect_busWr h
  | mmGet => obtain ⟨-, rfl⟩ := execMmGet_next h; exact .answers _
  | segGet r k => exact effect_segGet h
  | segSet r k v => exact effect_segSet h
  | segCopy r start bs => exact effect_segCopy h
  | segSize r =>
    obtain ⟨-, ⟨hr, rfl⟩ | ⟨-, rfl⟩⟩ := execSegSize_next h
    · exact effect_of_segRef_missing rfl hr
    · exact .answers _
  | segAttach b d n =>
    obtain ⟨-, ⟨hn, rfl⟩ | ⟨D, hD, rfl⟩⟩ := execSegAttach_next h
    · exact .refuses rfl hn
    · exact .attaches rfl hD
  | drvStepPhase d a => exact effect_of_writesDrive rfl (.inl ⟨a, rfl⟩) h
  | drvShift d off => exact effect_of_writesDrive rfl (.inr (.inl ⟨off, rfl⟩)) h
  | drvStep d off => exact effect_of_writesDrive rfl (.inr (.inr (.inl ⟨off, rfl⟩))) h
  | drvSetFlags d v =>
    exact effect_of_writesDrive rfl (.inr (.inr (.inr (.inl ⟨v, rfl⟩)))) h
  | drvSetImagetype d y =>
    exact effect_of_writesDrive rfl (.inr (.inr (.inr (.inr ⟨y, rfl⟩)))) h
  | drvPosition d | drvGetHead d | drvGetFlags d | drvGetImagetype d => exact effect_reportDrive rfl h
  | reset => obtain ⟨-, rfl⟩ := execReset_next h; exact .creates rfl

/-! ## The next states of SEG_GET and SEG_SET -/

section port
variable {s : State} {r : SegRef} {g : Segment} {i : Int} (hf : s.fault = none)
include hf

theorem execSegGet_of_mem (hg : s.segOf r = some g) (h0 : 0 ≤ i) (h1 : i < g.len) :
    execSegGet r i s = .next (s.respond (.byte (g.read i.toNat))) := by
  rw [execSegGet, withSeg_of_ok (segRef_ok_of_segOf hg), running_of_none hf, State.segGet?_of_mem hg h0 h1]
  rfl

theorem execSegSet_of_mem (v : Byte) (hg : s.segOf r = some g) (h0 : 0 ≤ i) (h1 : i < g.len) :
    execSegSet r i v s = .next ((s.setSeg r (g.write i.toNat v)).respond .done) := by
  rw [execSegSet, withSeg_of_ok (segRef_ok_of_segOf hg), running_of_none hf, State.segSet?_of_mem v hg h0 h1]
  rfl

theorem execSegGet_of_out (hr : r.ok s.drives.length = true) (hb : i < 0 ∨ (s.segLen r : Int) ≤ i) :
    execSegGet r i s = .next (s.raiseFatal (faultRecord faultSegGet r.sel r.drv i)) := by
  rw [execSegGet, withSeg_of_ok hr, running_of_none hf, State.segGet?_eq_none.mpr hb]
  rfl

theorem execSegSet_of_out (v : Byte) (hr : r.ok s.drives.length = true) (hb : i < 0 ∨ (s.segLen r : Int) ≤ i) :
    execSegSet r i v s = .next (s.raiseFatal (faultRecord faultSegSet r.sel r.drv i)) := by
  rw [execSegSet, withSeg_of_ok hr, running_of_none hf, State.segSet?_eq_none.mpr hb]
  rfl

end port

/-! ## Faults and completion -/

theorem exec_next_fault {i : Instr} {s t : State} (h : exec i s = .next t) : s.fault = none := (exec_next_mark h).1

/-- A next state with a fault is the fatal entry of an access out of bounds. -/
theorem exec_next_faulted {i : Instr} {s t : State} (h : exec i s = .next t) (ht : t.fault ≠ none) :
    (∃ q, t = s.raiseFatal q) ∧
      ((∃ r k, (i = .segGet r k ∨ ∃ v, i = .segSet r k v) ∧ r.ok s.drives.length = true ∧
          (k < 0 ∨ (s.segLen r : Int) ≤ k)) ∨
        ∃ a, (i = .busRd a ∨ ∃ v, i = .busWr a v) ∧ BusOutOfBounds s a) := by
  have hf : s.fault = none := exec_next_fault h
  cases exec_effect h with
  | portFaults q hi hr hk => exact ⟨⟨q, rfl⟩, .inl ⟨_, _, hi, hr, hk⟩⟩
  | busFaults q hi hb => exact ⟨⟨q, rfl⟩, .inr ⟨_, hi, hb⟩⟩
  | stores p hi hg hw => exact absurd ((State.setSeg_fault s _ _).trans hf) ht
  | creates hi => exact absurd rfl ht
  | _ => exact absurd hf ht

/-- Settles O49: the fatal entry is the one effect that leaves a fault. -/
theorem faultsArePrecise : Obligations.FaultsArePrecise := by
  unfold Obligations.FaultsArePrecise
  intro i s t h ht
  obtain ⟨⟨q, rfl⟩, -⟩ := exec_next_faulted h ht
  rfl

/-- The constraints of 00_scope.md R7 keep every CPU address inside its segment (20_memory.md R46). -/
theorem State.Inv.not_busOutOfBounds {s : State} (h : s.Inv) (a : Addr) : ¬ BusOutOfBounds s a := by
  obtain ⟨⟨hram, -⟩, hmain, haux, hrom, -⟩ := h
  unfold BusOutOfBounds
  omega

/-- Settles O48: the segment port's bounds check is the one that can fail under the invariants, and where it fails the
transaction takes the fault. -/
theorem fatalFaultsHaveTwoCauses : Obligations.FatalFaultsHaveTwoCauses := by
  unfold Obligations.FatalFaultsHaveTwoCauses
  intro i s t hinv h
  constructor
  · intro ht
    obtain ⟨-, hport | ⟨a, -, hb⟩⟩ := exec_next_faulted h ht
    · exact hport
    · exact absurd hb (hinv.not_busOutOfBounds a)
  · have hf : s.fault = none := exec_next_fault h
    rintro ⟨r, k, rfl | ⟨v, rfl⟩, hr, hk⟩
    · cases (execSegGet_of_out hf hr hk).symm.trans h
      simp
    · cases (execSegSet_of_out hf v hr hk).symm.trans h
      simp

/-- A transaction whose drive exists answers a next state. -/
theorem exists_exec_next {i : Instr} {s : State} (hf : s.fault = none)
    (hd : ∀ d, i.drive? = some d → d.toNat < s.drives.length) : ∃ t, exec i s = .next t := by
  cases h : exec i s with
  | next t => exact ⟨t, rfl⟩
  | fault q =>
    obtain ⟨r, hr, -⟩ := exec_fault h
    simp [hf] at hr
  | refused q =>
    obtain ⟨d, hi, hn, -⟩ := exec_refused h
    exact absurd (hd d hi) (Nat.not_lt.mpr hn)

/-- Every effect but the refusal and the fatal entry gives a response. -/
theorem Effect.resp {i : Instr} {s t : State} (he : Effect i s t)
    (hd : ∀ d, i.drive? = some d → d.toNat < s.drives.length) (ht : t.fault = none) : t.resp ≠ none := by
  cases he with
  | refuses hi hn => exact absurd (hd _ hi) (Nat.not_lt.mpr hn)
  | portFaults | busFaults => simp at ht
  | _ => simp

/-- Settles O9: the drive exists, so the transaction is not refused, and it has an effect that responds or a fatal entry. -/
theorem wellFormedTransactionsAnswer : Obligations.WellFormedTransactionsAnswer := by
  unfold Obligations.WellFormedTransactionsAnswer
  intro i s hf hwf
  have hd : ∀ d, i.drive? = some d → d.toNat < s.drives.length := fun d => Instr.drive_lt_of_wf hwf
  obtain ⟨t, h⟩ := exists_exec_next hf hd
  refine ⟨t, h, ?_, (exec_effect h).resp hd⟩
  obtain ⟨-, ⟨d, hi, hn, -⟩ | ⟨-, hmark⟩⟩ := exec_next_mark h
  · exact absurd (hd d hi) (Nat.not_lt.mpr hn)
  · exact hmark

/-- Settles O18: a bus access answers a next state, and its cell is in bounds. -/
theorem busAccessesNeverFault : Obligations.BusAccessesNeverFault := by
  unfold Obligations.BusAccessesNeverFault
  intro s a v hinv hf
  have safe (i : Instr) (hi : i = .busRd a ∨ i = .busWr a v) : ∃ t, exec i s = .next t ∧ t.fault = none := by
    obtain ⟨t, h⟩ := exists_exec_next (i := i) hf fun d hd => by rcases hi with rfl | rfl <;> cases hd
    refine ⟨t, h, by_contra fun ht => ?_⟩
    obtain ⟨-, ⟨r, k, hport, -⟩ | ⟨x, -, hb⟩⟩ := exec_next_faulted h ht
    · rcases hi with rfl | rfl <;> simp at hport
    · exact hinv.not_busOutOfBounds x hb
  exact ⟨safe _ (.inl rfl), safe _ (.inr rfl)⟩

end Sys2Proof.Machine

/-! # PROOFS: what every step keeps (10_state.md R40, R41, R44)

The invariants, the freshness of the free values and the configuration, from one step lemma over the effects. -/

namespace Sys2Proof.Machine

/-! ## From transactions to steps -/

/-- A property that neither the queue nor the refusal touches, and that every transaction keeps, is kept by every step. -/
theorem step_keeps {P : State → Prop} (hpending : ∀ s rest, P s → P { s with pending := rest })
    (hrefused : ∀ s, P s → P s.markRefused) (hexec : ∀ i s t, P s → exec i s = .next t → P t) {s t : State} (hs : P s)
    (h : step s = .next t) : P t := by
  have hT : tableOk s.cfg.switchTable = true := tableOk_of_step_next h
  cases hp : s.pending with
  | nil =>
    obtain ⟨-, rfl⟩ | ⟨u, rest, hcons, -⟩ := step_next_mark hT h
    · exact hs
    · simp [hp] at hcons
  | cons u rest =>
    cases hd : decode u with
    | error e =>
      obtain ⟨-, rfl⟩ := refuse_next ((step_of_decode_error hT hp hd).symm.trans h)
      exact hrefused _ (hpending s rest hs)
    | ok i => exact hexec i _ t (hpending s rest hs) ((step_of_decode_ok hT hp hd).symm.trans h)

theorem exec_next_cfg {i : Instr} {s t : State} (h : exec i s = .next t) : t.cfg = s.cfg := by
  cases exec_effect h with
  | stores p hi hg hw => exact State.setSeg_cfg s _ _
  | _ => rfl

/-- Settles O54: no transaction has an effect on the configuration. -/
theorem configurationNeverChanges : Obligations.ConfigurationNeverChanges := by
  unfold Obligations.ConfigurationNeverChanges
  intro s t h
  exact step_keeps (P := fun u => u.cfg = s.cfg) (fun _ _ hu => hu) (fun _ hu => hu)
    (fun _ _ _ hu hexec => (exec_next_cfg hexec).trans hu) rfl h

/-! ## The invariants -/

theorem State.Inv.setDrive {s : State} (h : s.Inv) (d : DriveIx) {E : Drive} (hE : E.Ok) : (s.setDrive d E).Inv := by
  obtain ⟨hcfg, hmain, haux, hrom, wmain, waux, wrom, hlen, hall⟩ := h
  refine ⟨hcfg, hmain, haux, hrom, wmain, waux, wrom, (List.length_set ..).trans hlen, fun D hD => ?_⟩
  rcases List.mem_or_eq_of_mem_set hD with hD | rfl
  · exact hall D hD
  · exact hE

/-- Putting a buffer is putting its drive. -/
theorem State.setSeg_buf {s : State} {d : DriveIx} {D : Drive} (hD : s.drives[d.toNat]? = some D) (b : BufSel)
    (g : Segment) : s.setSeg (.buf b d) g = s.setDrive d (D.setBuf b g) := by
  simp [State.setSeg, State.setDrive, List.modify_eq_set_getElem?, hD]

/-- The invariants with another segment of the same length and in canonical form in the place of one. -/
theorem State.Inv.setSeg {s : State} (h : s.Inv) {r : SegRef} {g g' : Segment} (hg : s.segOf r = some g)
    (hlen : g'.len = g.len) (hwf : g.wf = true → g'.wf = true) : (s.setSeg r g').Inv := by
  have hinv := h
  obtain ⟨hcfg, hmain, haux, hrom, wmain, waux, wrom, hn, hall⟩ := h
  cases r with
  | main => cases hg; exact ⟨hcfg, hlen.trans hmain, haux, hrom, hwf wmain, waux, wrom, hn, hall⟩
  | aux => cases hg; exact ⟨hcfg, hmain, hlen.trans haux, hrom, wmain, hwf waux, wrom, hn, hall⟩
  | rom => cases hg; exact ⟨hcfg, hmain, haux, hlen.trans hrom, wmain, waux, hwf wrom, hn, hall⟩
  | buf b d =>
    obtain ⟨D, hD, hb⟩ := Option.bind_eq_some_iff.mp hg
    rw [State.setSeg_buf hD]
    refine hinv.setDrive d ((hinv.drive_ok hD).setBuf b (hwf ?_))
    obtain ⟨-, -, -, hdata, himage⟩ := hinv.drive_ok hD
    cases b with
    | data => simpa [show D.data = some g from hb] using hdata
    | image => simpa [show D.image = some g from hb] using himage

theorem State.Inv.create {s : State} (h : s.Inv) : s.create.Inv := by
  obtain ⟨hcfg, -⟩ := h
  refine ⟨hcfg, rfl, rfl, rfl, rfl, rfl, rfl, List.length_replicate, fun D hD => ?_⟩
  rw [List.eq_of_mem_replicate hD]
  exact Drive.initial_ok

theorem exec_keeps_inv {i : Instr} {s t : State} (hinv : s.Inv) (h : exec i s = .next t) : t.Inv := by
  cases exec_effect h with
  | stores p hi hg hw => exact hinv.setSeg hg hw.len hw.wf
  | moves hi hD hE => exact hinv.setDrive _ (hE.ok (hinv.drive_ok hD))
  | attaches hi hD => exact hinv.setDrive _ ((hinv.drive_ok hD).setBuf _ (Segment.wf_fresh _ _))
  | creates hi => exact hinv.create
  | _ => exact hinv

/-- Settles O52: every transaction keeps the invariants, and the queue and the mark are no part of them. -/
theorem everyStepKeepsTheInvariants : Obligations.EveryStepKeepsTheInvariants := by
  unfold Obligations.EveryStepKeepsTheInvariants
  intro s t
  exact step_keeps (P := State.Inv) (fun _ _ hu => hu) (fun _ hu => hu) fun _ _ _ => exec_keeps_inv

/-- Settles O51: at reset the segments have their lengths and nothing is written, and each drive is a drive after RESET. -/
theorem invariantsHoldAtReset : Obligations.InvariantsHoldAtReset := by
  unfold Obligations.InvariantsHoldAtReset
  refine ⟨by decide, rfl, rfl, rfl, rfl, rfl, rfl, rfl, fun D hD => ?_⟩
  rw [List.eq_of_mem_replicate hD]
  exact Drive.initial_ok

end Sys2Proof.Machine

/-! # PROOFS: the free values (00_scope.md R13, log 6)

The creation numbers of the segments under each update of the state: a step keeps them, or adds the next one in the place of
one that goes. -/

namespace Sys2Proof.Machine

/-- A list about one of its places, and the list with another element there. -/
theorem exists_split_of_getElem? {α : Type} {l : List α} {n : Nat} {x : α} (h : l[n]? = some x) :
    ∃ l₁ l₂, l = l₁ ++ x :: l₂ ∧ ∀ y, l.set n y = l₁ ++ y :: l₂ := by
  obtain ⟨hlt, rfl⟩ := List.getElem?_eq_some_iff.mp h
  have hset (y : α) : l.set n y = l.take n ++ y :: l.drop (n + 1) := List.set_eq_take_cons_drop y hlt
  exact ⟨_, _, by rw [← hset, List.set_getElem_self], hset⟩

theorem nodup_of_subperm {l m : List Nat} (h : l.Subperm m) (hm : m.Nodup) : l.Nodup := by
  obtain ⟨l', hperm, hsub⟩ := h
  exact hperm.nodup_iff.mp (hm.sublist hsub)

/-! ## The creation numbers after an update -/

theorem Drive.Moved.seeds {D E : Drive} (h : D.Moved E) : E.seeds = D.seeds := by
  simp only [Drive.seeds, h.data, h.image]

/-- A buffer of the same creation in the place of another changes no creation number. -/
theorem Drive.seeds_setBuf_of_seed_eq {D : Drive} {b : BufSel} {g g' : Segment} (hb : D.buf b = some g)
    (hs : g'.seed = g.seed) : (D.setBuf b g').seeds = D.seeds := by
  cases b with
  | data =>
    have hdata : D.data = some g := hb
    simp [Drive.seeds, Drive.setBuf, hdata, hs]
  | image =>
    have himage : D.image = some g := hb
    simp [Drive.seeds, Drive.setBuf, himage, hs]

/-- A new buffer adds its creation number, and drops that of the buffer that goes. -/
theorem Drive.seeds_setBuf_subperm (D : Drive) (b : BufSel) (g : Segment) :
    (D.setBuf b g).seeds.Subperm (g.seed :: D.seeds) := by
  cases b with
  | data =>
    refine List.Sublist.subperm (List.Sublist.cons_cons _ ?_)
    simp [Drive.seeds, Drive.setBuf]
  | image =>
    have hsub : (D.data.toList.map Segment.seed).Sublist D.seeds := by simp [Drive.seeds]
    have hperm : (D.setBuf .image g).seeds.Perm (g.seed :: D.data.toList.map Segment.seed) := by
      simp [Drive.seeds, Drive.setBuf]
    exact hperm.subperm.trans (hsub.cons_cons _).subperm

theorem State.seeds_setDrive_of_eq {s : State} {d : DriveIx} {D E : Drive} (hD : s.drives[d.toNat]? = some D)
    (h : E.seeds = D.seeds) : (s.setDrive d E).seeds = s.seeds := by
  obtain ⟨l₁, l₂, hl, hset⟩ := exists_split_of_getElem? hD
  simp only [State.seeds, State.setDrive, hset]
  simp [hl, h]

theorem State.seeds_setDrive_subperm {s : State} {d : DriveIx} {D E : Drive} {k : Nat}
    (hD : s.drives[d.toNat]? = some D) (h : E.seeds.Subperm (k :: D.seeds)) :
    (s.setDrive d E).seeds.Subperm (k :: s.seeds) := by
  obtain ⟨l₁, l₂, hl, hset⟩ := exists_split_of_getElem? hD
  have hs : s.seeds = (s.main.seed :: s.aux.seed :: s.rom.seed :: l₁.flatMap Drive.seeds) ++
      (D.seeds ++ l₂.flatMap Drive.seeds) := by simp [State.seeds, hl]
  have ht : (s.setDrive d E).seeds = (s.main.seed :: s.aux.seed :: s.rom.seed :: l₁.flatMap Drive.seeds) ++
      (E.seeds ++ l₂.flatMap Drive.seeds) := by simp [State.seeds, State.setDrive, hset]
  rw [hs, ht]
  exact ((List.Subperm.refl _).append (h.append (List.Subperm.refl _))).trans List.perm_middle.subperm

theorem State.seeds_setSeg {s : State} {r : SegRef} {g g' : Segment} (hg : s.segOf r = some g) (hs : g'.seed = g.seed) :
    (s.setSeg r g').seeds = s.seeds := by
  cases r with
  | buf b d =>
    obtain ⟨D, hD, hb⟩ := Option.bind_eq_some_iff.mp hg
    rw [State.setSeg_buf hD]
    exact State.seeds_setDrive_of_eq hD (Drive.seeds_setBuf_of_seed_eq hb hs)
  | _ => cases hg; simp [State.seeds, State.setSeg, hs]

/-! ## Freshness -/

/-- The same creation numbers, and no fewer draws. -/
theorem State.FreshDraws.of_seeds_eq {s t : State} (h : s.FreshDraws) (hs : t.seeds = s.seeds) (hd : s.draws ≤ t.draws) :
    t.FreshDraws := by
  obtain ⟨hnodup, hlt⟩ := h
  unfold State.FreshDraws
  rw [hs]
  exact ⟨hnodup, fun k hk => (hlt k hk).trans_le hd⟩

/-- One creation number more, that of this draw. -/
theorem State.FreshDraws.of_subperm {s t : State} (h : s.FreshDraws) (hs : t.seeds.Subperm (s.draws :: s.seeds))
    (hd : t.draws = s.draws + 1) : t.FreshDraws := by
  obtain ⟨hnodup, hlt⟩ := h
  have hnew : s.draws ∉ s.seeds := fun hm => (hlt _ hm).false
  refine ⟨nodup_of_subperm hs (List.nodup_cons.mpr ⟨hnew, hnodup⟩), fun k hk => ?_⟩
  rcases List.mem_cons.mp (hs.subset hk) with rfl | hk
  · omega
  · have := hlt k hk
    omega

/-- RESET makes three segments of three creations, and drives without buffers (70_reset_and_hazards.md R165). -/
theorem State.seeds_create (s : State) : s.create.seeds = [s.draws, s.draws + 1, s.draws + 2] := by
  simp [State.seeds, State.create, Drive.seeds, Drive.initial]

theorem State.FreshDraws.create (s : State) : s.create.FreshDraws := by
  have hdraws : s.create.draws = s.draws + 3 := rfl
  simp [State.FreshDraws, State.seeds_create, hdraws]

theorem exec_keeps_freshDraws {i : Instr} {s t : State} (hs : s.FreshDraws) (h : exec i s = .next t) : t.FreshDraws := by
  cases exec_effect h with
  | draws v hi => exact hs.of_seeds_eq rfl (Nat.le_succ _)
  | stores p hi hg hw => exact hs.of_seeds_eq (State.seeds_setSeg hg hw.seed) (State.setSeg_draws s _ _).ge
  | moves hi hD hE => exact hs.of_seeds_eq (State.seeds_setDrive_of_eq hD hE.seeds) le_rfl
  | attaches hi hD => exact hs.of_subperm (State.seeds_setDrive_subperm hD (Drive.seeds_setBuf_subperm _ _ _)) rfl
  | creates hi => exact State.FreshDraws.create s
  | _ => exact hs

/-- Settles O53: at reset the creations are 0, 1 and 2, and every transaction keeps them fresh. -/
theorem freeValuesStayFresh : Obligations.FreeValuesStayFresh := by
  unfold Obligations.FreeValuesStayFresh
  refine ⟨?_, fun s t => ?_⟩
  · have hseeds : State.reset.seeds = [0, 1, 2] := rfl
    simp [State.FreshDraws, hseeds, show State.reset.draws = 3 from rfl]
  · exact step_keeps (P := State.FreshDraws) (fun _ _ hu => hu) (fun _ hu => hu) fun _ _ _ => exec_keeps_freshDraws

/-! ## Equal data -/

/-- Settles O55: a rising list is determined by the byte it lists at each address. -/
theorem canonicalSegmentsAreEqualData : Obligations.CanonicalSegmentsAreEqualData := by
  unfold Obligations.CanonicalSegmentsAreEqualData
  intro g h hg hh hlen hseed hcell
  obtain ⟨hrg, -⟩ := Bool.and_eq_true_iff.mp hg
  obtain ⟨hrh, -⟩ := Bool.and_eq_true_iff.mp hh
  have hcells : g.cells = h.cells := eq_of_cellAt_eq hrg hrh hcell
  cases g
  cases h
  exact Segment.mk.injEq .. ▸ ⟨hlen, hseed, hcells⟩

end Sys2Proof.Machine

/-! # PROOFS: the frames (10_state.md R44)

What the transactions of each port leave unchanged, read off their effects. -/

namespace Sys2Proof.Machine

/-! ## The segments under each update -/

theorem State.segOf_setDrive {s : State} {d : DriveIx} {D E : Drive} (hD : s.drives[d.toNat]? = some D) {q : SegRef}
    (h : ∀ b, q = .buf b d → E.buf b = D.buf b) : (s.setDrive d E).segOf q = s.segOf q := by
  cases q with
  | buf b e =>
    by_cases he : e = d
    · subst he
      simp only [State.segOf, State.drive_setDrive hD, hD, Option.bind_some]
      exact h b rfl
    · have hne : d.toNat ≠ e.toNat := fun hc => he (BitVec.eq_of_toNat_eq hc.symm)
      simp only [State.segOf, State.setDrive_drives, List.getElem?_set_ne hne]
  | _ => rfl

theorem Drive.Moved.buf {D E : Drive} (h : D.Moved E) (b : BufSel) : E.buf b = D.buf b := by
  cases b with
  | data => exact h.data
  | image => exact h.image

/-- A cell that a store leaves alone reads as before. -/
theorem State.peek_setSeg {s : State} {r q : SegRef} {g g' : Segment} {p : Nat → Prop} {a : Nat}
    (hg : s.segOf r = some g) (hw : g.StoredAt g' p) (ha : q = r → ¬ p a) : (s.setSeg r g').peek q a = s.peek q a := by
  by_cases hq : q = r
  · subst hq
    rw [State.peek_of_some (State.segOf_setSeg hg), State.peek_of_some hg, hw.len, hw.read a (ha rfl)]
  · exact State.peek_congr (State.segOf_setSeg_ne hq) a

/-- Settles O56: the cells that a store, a new buffer or RESET leaves alone read as before, and no other effect is on
memory. -/
theorem memoryOutsideTheStoresIsUnchanged : Obligations.MemoryOutsideTheStoresIsUnchanged := by
  unfold Obligations.MemoryOutsideTheStoresIsUnchanged
  intro i s t r a h ha
  cases exec_effect h with
  | refuses hi hd => exact State.peek_congr (State.markRefused_segOf s r) a
  | answers q => exact State.peek_congr (State.respond_segOf s q r) a
  | portFaults q hi hr hk | busFaults q hi hb => exact State.peek_congr (State.raiseFatal_segOf s q r) a
  | draws v hi => exact State.peek_congr ((State.respond_segOf s.drawn _ r).trans (State.drawn_segOf s r)) a
  | traps q hi => exact State.peek_congr (State.respond_segOf { s with memMode := _ } q r) a
  | presents hi => exact State.peek_congr (State.presentExt_segOf s _ _ r) a
  | stores p hi hg hw =>
    exact (State.peek_congr (State.respond_segOf _ p r) a).trans (State.peek_setSeg hg hw fun hr => hr ▸ ha)
  | moves hi hD hE =>
    exact State.peek_congr
      ((State.respond_segOf _ _ r).trans (State.segOf_setDrive hD fun b _ => hE.buf b)) a
  | @attaches b d n D hi hD =>
    subst hi
    have hother : ∀ c, r = .buf c d → (D.setBuf b (Segment.fresh n s.draws)).buf c = D.buf c := fun c hr =>
      Drive.buf_setBuf_ne (fun hc => ha (by rw [hr, hc]; rfl)) _ _
    have hseg : (s.drawn.setDrive d (D.setBuf b (Segment.fresh n s.draws))).segOf r = s.segOf r :=
      (State.segOf_setDrive (s := s.drawn) hD hother).trans (State.drawn_segOf s r)
    exact State.peek_congr ((State.respond_segOf _ .done r).trans hseg) a
  | creates hi =>
    subst hi
    exact absurd trivial ha

/-- Settles O57: a transaction that reads has no effect but its answer, a refusal, or the fault of SEG_GET. -/
theorem readingTransactionsWriteNothing : Obligations.ReadingTransactionsWriteNothing := by
  unfold Obligations.ReadingTransactionsWriteNothing
  intro i s t hop h
  cases exec_effect h with
  | refuses hi hd | answers q => exact ⟨rfl, rfl, rfl, rfl, rfl, rfl, rfl, fun _ => rfl⟩
  | portFaults q hi hr hk =>
    refine ⟨rfl, rfl, rfl, rfl, rfl, rfl, rfl, fun hne => ?_⟩
    obtain rfl | ⟨v, rfl⟩ := hi
    · exact absurd rfl hne
    · simp [Instr.op] at hop
  | busFaults q hi hb => obtain rfl | ⟨v, rfl⟩ := hi <;> simp [Instr.op] at hop
  | traps q hi => obtain ⟨rfl, -⟩ | ⟨v, rfl, -⟩ := hi <;> simp [Instr.op] at hop
  | stores p hi hg hw =>
    obtain ⟨a, v, b, rfl, -⟩ | ⟨k, v, rfl⟩ | ⟨k, bs, rfl⟩ := hi <;> simp [Instr.op] at hop
  | moves hi hD hE =>
    obtain ⟨_, rfl⟩ | ⟨_, rfl⟩ | ⟨_, rfl⟩ | ⟨_, rfl⟩ | ⟨_, rfl⟩ := hi <;> simp [Instr.op] at hop
  | draws v hi | presents hi | attaches hi hD | creates hi => subst hi; simp [Instr.op] at hop

/-- Settles O58: a bus access has no effect on a drive, a read none on memory, and a write only on Main and Aux. -/
theorem cpuBusTouchesOnlyModeAndRam : Obligations.CpuBusTouchesOnlyModeAndRam := by
  unfold Obligations.CpuBusTouchesOnlyModeAndRam
  refine fun s t a v => ⟨fun h => ?read, fun h => ?write⟩
  case read =>
    cases exec_effect h with
    | stores p hi hg hw => simp [WritesSegment] at hi
    | moves hi hD hE => simp [WritesDrive] at hi
    | attaches hi hD | creates hi => cases hi
    | _ => exact ⟨rfl, rfl, rfl, rfl, rfl⟩
  case write =>
    cases exec_effect h with
    | stores p hi hg hw =>
      obtain ⟨-, -, b, -, rfl⟩ | ⟨_, _, hi⟩ | ⟨_, _, hi⟩ := hi
      · cases b <;> exact ⟨rfl, rfl, rfl, rfl⟩
      · cases hi
      · cases hi
    | moves hi hD hE => simp [WritesDrive] at hi
    | draws v hi | attaches hi hD | creates hi => cases hi
    | _ => exact ⟨rfl, rfl, rfl, rfl⟩

/-- A drive that is put does not show in what it shares with the drive before. -/
theorem State.map_drives_setDrive {α : Type} {f : Drive → α} {s : State} {d : DriveIx} {D E : Drive}
    (hD : s.drives[d.toNat]? = some D) (h : f E = f D) : (s.setDrive d E).drives.map f = s.drives.map f := by
  obtain ⟨l₁, l₂, hl, hset⟩ := exists_split_of_getElem? hD
  simp only [State.setDrive, hset]
  simp [hl, h]

/-- A drive without its buffers. -/
def Drive.eraseBuffers (D : Drive) : Drive := { D with data := none, image := none }

theorem Drive.eraseBuffers_setBuf (b : BufSel) (g : Segment) (D : Drive) :
    (D.setBuf b g).eraseBuffers = D.eraseBuffers := by
  cases b <;> rfl

theorem State.eraseBuffers_setSeg {s : State} {r : SegRef} {g g' : Segment} (hg : s.segOf r = some g) :
    (s.setSeg r g').drives.map Drive.eraseBuffers = s.drives.map Drive.eraseBuffers := by
  cases r with
  | buf b d =>
    obtain ⟨D, hD, -⟩ := Option.bind_eq_some_iff.mp hg
    rw [State.setSeg_buf hD]
    exact State.map_drives_setDrive hD (Drive.eraseBuffers_setBuf b g' D)
  | _ => rfl

/-- Settles O59: a segment transaction stores to a segment or makes a buffer, and both leave the rest of the drives. -/
theorem segmentPortTouchesOnlySegments : Obligations.SegmentPortTouchesOnlySegments := by
  unfold Obligations.SegmentPortTouchesOnlySegments
  intro i s t hop h
  cases exec_effect h with
  | traps r hi => obtain ⟨rfl, -⟩ | ⟨v, rfl, -⟩ := hi <;> simp [Instr.op] at hop
  | stores p hi hg hw =>
    exact ⟨State.setSeg_memMode s _ _, State.setSeg_pending s _ _, State.eraseBuffers_setSeg hg⟩
  | moves hi hD hE =>
    obtain ⟨_, rfl⟩ | ⟨_, rfl⟩ | ⟨_, rfl⟩ | ⟨_, rfl⟩ | ⟨_, rfl⟩ := hi <;> simp [Instr.op] at hop
  | attaches hi hD =>
    exact ⟨rfl, rfl, State.map_drives_setDrive (s := s.drawn) (f := Drive.eraseBuffers) hD
      (Drive.eraseBuffers_setBuf _ _ _)⟩
  | creates hi => subst hi; simp [Instr.op] at hop
  | _ => exact ⟨rfl, rfl, rfl⟩

/-- Settles O60: each of the five is the update of its drive by a move that keeps the buffers. -/
theorem drivePortTouchesOnlyItsDrive : Obligations.DrivePortTouchesOnlyItsDrive := by
  unfold Obligations.DrivePortTouchesOnlyItsDrive
  intro i s t d hi h
  obtain ⟨f, hmoved, hexec⟩ := exec_eq_updateDrive hi
  obtain ⟨-, ⟨-, rfl⟩ | ⟨D, hD, rfl⟩⟩ := updateDrive_next ((hexec s).symm.trans h)
  · exact ⟨rfl, rfl, rfl, rfl, rfl, rfl, rfl, rfl, fun e he => rfl, fun b => rfl⟩
  · refine ⟨rfl, rfl, rfl, rfl, rfl, rfl, rfl, List.length_set .., fun e he => ?_, fun b => ?_⟩
    · exact List.getElem?_set_ne he.symm
    · exact (State.respond_segOf _ _ _).trans (State.segOf_setDrive hD fun b _ => (hmoved D).buf b)

end Sys2Proof.Machine

/-! # PROOFS: the traps and the windows of the CPU bus (41_bus.md R109 to R117)

Which accesses run a trap and what it does, and the next states of the untrapped accesses above 0xBFFF. -/

namespace Sys2Proof.Machine

/-! ## Which accesses run a trap -/

theorem resolveRead_eq_trap_iff {c : Config} {a : Addr} {m : Byte} {k : Trap} :
    resolveRead c a m = .trap k ↔ 0xC000 ≤ a.toNat ∧ readTrap c.switchTable a = some k := by
  rcases resolveRead_cases c a m with ⟨ha, h⟩ | ⟨j, ha, hj, h⟩ | ⟨ha, hn, h⟩
  · rw [h]
    exact iff_of_false (by simp) fun hk => by omega
  · simp [h, hj, ha]
  · rw [hn]
    refine iff_of_false ?_ (by simp)
    rcases h with h | h | ⟨h, -⟩ <;> simp [h]

theorem resolveWrite_eq_trap_iff {c : Config} {a : Addr} {m : Byte} {k : Trap} :
    resolveWrite c a m = .trap k ↔ 0xC000 ≤ a.toNat ∧ writeTrap c.switchTable a = some k := by
  rcases resolveWrite_cases c a m with ⟨ha, h⟩ | ⟨j, ha, hj, h⟩ | ⟨ha, hn, h⟩
  · rw [h]
    exact iff_of_false (by simp) fun hk => by omega
  · simp [h, hj, ha]
  · rw [hn]
    refine iff_of_false ?_ (by simp)
    rcases h with h | h <;> simp [h]

/-- Settles O13: the decoder's cases put the table before everything above 0xBFFF. -/
theorem trapsComeBeforeTheWindows : Obligations.TrapsComeBeforeTheWindows := by
  unfold Obligations.TrapsComeBeforeTheWindows
  exact fun c a m k => ⟨resolveRead_eq_trap_iff, resolveWrite_eq_trap_iff⟩

/-- Settles O15: a transaction other than RESET that changes MemMode runs a trap, and a Probe keeps MemMode. -/
theorem memModeChangesOnlyByTrapsAndReset : Obligations.MemModeChangesOnlyByTrapsAndReset := by
  unfold Obligations.MemModeChangesOnlyByTrapsAndReset
  intro i s t h hne
  by_cases hi : i = .reset
  · exact .inl hi
  · obtain heq | ⟨a, k, hk⟩ := exec_memMode_eq_or_runsTrap hi h
    · exact absurd heq hne
    · have hmode : t.memMode = (runTrap k s.memMode).2 := hk.memMode h
      obtain ⟨ha, haccess⟩ : 0xC000 ≤ a.toNat ∧ ((i = .busRd a ∧ readTrap s.cfg.switchTable a = some k) ∨
          ∃ v, i = .busWr a v ∧ writeTrap s.cfg.switchTable a = some k) := by
        rcases hk with ⟨rfl, hr⟩ | ⟨v, rfl, hr⟩
        · obtain ⟨ha, htrap⟩ := resolveRead_eq_trap_iff.mp hr
          exact ⟨ha, .inl ⟨rfl, htrap⟩⟩
        · obtain ⟨ha, htrap⟩ := resolveWrite_eq_trap_iff.mp hr
          exact ⟨ha, .inr ⟨v, rfl, htrap⟩⟩
      cases k with
      | probe f => exact absurd hmode hne
      | set f => exact .inr ⟨a, f, .set f, ha, haccess, .inl ⟨rfl, hmode⟩⟩
      | unset f => exact .inr ⟨a, f, .unset f, ha, haccess, .inr ⟨rfl, hmode⟩⟩

/-! ## What a trap does -/

/-- The status of a flag just set is 0x80 (41_bus.md R115, R117). -/
theorem status_setFlag (f : ModeFlag) (m : Byte) : status f (setFlag f m) = 0x80 :=
  if_pos (setFlag_getLsbD_self f m)

/-- The status of a flag just cleared is 0x00 (41_bus.md R116, R117). -/
theorem status_unsetFlag (f : ModeFlag) (m : Byte) : status f (unsetFlag f m) = 0x00 :=
  if_neg (by simp [flag, unsetFlag_getLsbD_self])

/-- Settles O12: an access that resolves to a trap runs it, for each of the three kinds and both operations. -/
theorem trapsRunInsteadOfTheAccess : Obligations.TrapsRunInsteadOfTheAccess := by
  unfold Obligations.TrapsRunInsteadOfTheAccess
  refine fun s a v f hf => ⟨execBusRd_of_trap hf, fun h => ?setRead, fun h => ?unsetRead, execBusWr_of_trap v hf,
    execBusWr_of_trap v hf, execBusWr_of_trap v hf⟩
  case setRead => exact status_setFlag f s.memMode ▸ execBusRd_of_trap hf h
  case unsetRead => exact status_unsetFlag f s.memMode ▸ execBusRd_of_trap hf h

/-! ## The untrapped accesses above 0xBFFF -/

theorem resolveRead_of_io {c : Config} {a : Addr} {m : Byte} (h0 : 0xC000 ≤ a.toNat) (h1 : a.toNat ≤ 0xC0FF)
    (hn : readTrap c.switchTable a = none) : resolveRead c a m = .extIo a := by
  have hlt : ¬ a.toNat < 0xC000 := by omega
  simp only [resolveRead, hlt, if_false, hn, h1, if_true]

theorem resolveWrite_of_untrapped {c : Config} {a : Addr} {m : Byte} (h0 : 0xC000 ≤ a.toNat)
    (hn : writeTrap c.switchTable a = none) :
    resolveWrite c a m = if a.toNat ≤ 0xC0FF then .extIo a else .discard := by
  have hlt : ¬ a.toNat < 0xC000 := by omega
  simp only [resolveWrite, hlt, if_false, hn]

/-- Settles O16: the I/O page draws or presents, and above it a write is discarded. -/
theorem untrappedIoAndDiscardedWrites : Obligations.UntrappedIoAndDiscardedWrites := by
  unfold Obligations.UntrappedIoAndDiscardedWrites
  refine fun s a v hf h0 => ⟨fun h1 hn => ?read, fun hn => ?write⟩
  case read =>
    show execBusRd a s = _
    simp only [execBusRd, running_of_none hf, resolveRead_of_io h0 h1 hn]
    rfl
  case write =>
    show execBusWr a v s = _
    simp only [execBusWr, running_of_none hf, resolveWrite_of_untrapped h0 hn]
    by_cases h1 : a.toNat ≤ 0xC0FF <;> simp only [h1, if_true, if_false] <;> rfl

/-- Where a peripheral card answers a read above the I/O page (41_bus.md R111). -/
def PeripheralWindow (a : Addr) (m : Byte) : Prop :=
  a.toNat ≤ 0xCFFF ∧ flag m .slotCxROM = true ∧ (0xC300 ≤ a.toNat ∧ a.toNat ≤ 0xC3FF → flag m .slotC3ROM = true) ∧
    (0xC800 ≤ a.toNat → flag m .expROM = true)

/-- An untrapped read above the I/O page is of a peripheral card in the windows that the flags give it, and of Rom
elsewhere. -/
theorem resolveRead_of_window {c : Config} {a : Addr} {m : Byte} (h0 : 0xC100 ≤ a.toNat)
    (hn : readTrap c.switchTable a = none) :
    (PeripheralWindow a m ∧ resolveRead c a m = .periph a) ∨
      (¬ PeripheralWindow a m ∧ resolveRead c a m = .rom (romCell a)) := by
  have hlt : ¬ a.toNat < 0xC000 := by omega
  have hio : ¬ a.toNat ≤ 0xC0FF := by omega
  have hres : resolveRead c a m = if a.toNat ≤ 0xCFFF then romWindow a m else .rom (romCell a) := by
    simp only [resolveRead, hlt, hio, if_false, hn]
  rw [hres]
  unfold PeripheralWindow
  by_cases hwin : a.toNat ≤ 0xCFFF
  · rw [if_pos hwin]
    simp only [romWindow, hwin, true_and]
    by_cases h6 : flag m .slotCxROM = true
    · by_cases h3 : 0xC300 ≤ a.toNat ∧ a.toNat ≤ 0xC3FF
      · have hexp : ¬ 0xC800 ≤ a.toNat := by omega
        by_cases h7 : flag m .slotC3ROM = true <;> simp [h6, h3, h7, hexp]
      · by_cases hexp : 0xC800 ≤ a.toNat
        · by_cases h5 : flag m .expROM = true <;> simp [h6, h3, h5, hexp]
        · simp [h6, h3, hexp]
    · simp [h6]
  · simp [hwin]

theorem execBusRd_of_rom {s : State} {a : Addr} {i : Nat} (hf : s.fault = none)
    (hr : resolveRead s.cfg a s.memMode = .rom i) (hi : i < s.rom.len) :
    execBusRd a s = .next (s.respond (.byte (s.rom.read i))) := by
  simp only [execBusRd, running_of_none hf, hr, busReadCell_of_lt (show s.segOf .rom = some s.rom from rfl) hi]

/-- Settles O17: the window decides between the draw of a free byte and the read of a Rom cell, which is in bounds. -/
theorem romWindowReads : Obligations.RomWindowReads := by
  unfold Obligations.RomWindowReads
  intro s a hf hlen h0 hn
  obtain ⟨hw, hr⟩ | ⟨hw, hr⟩ := resolveRead_of_window (m := s.memMode) h0 hn
  · have hnext : execBusRd a s = .next (s.drawn.respond (.byte (Config.periphRead s.draws a))) := by
      simp only [execBusRd, running_of_none hf, hr]
    exact hnext.trans (congrArg Host.Outcome.next (if_pos hw).symm)
  · have hnext : execBusRd a s = .next (s.respond (.byte (s.rom.read (romCell a)))) :=
      execBusRd_of_rom hf hr (hlen ▸ romCell_lt a)
    exact hnext.trans (congrArg Host.Outcome.next (if_neg hw).symm)

/-- Settles O24: MM_GET answers MemMode and has no other effect. -/
theorem mmGetReturnsMemMode : Obligations.MmGetReturnsMemMode := by
  unfold Obligations.MmGetReturnsMemMode
  exact fun s hf => running_of_none hf

/-- Settles O11: the override makes MemPage2 the bit that selects the bank, for both operations. -/
theorem displayPagesFollowPageTwo : Obligations.DisplayPagesFollowPageTwo := by
  unfold Obligations.DisplayPagesFollowPageTwo
  intro s a v hf hmain haux hbuilt h80 hpage
  have hover : overrides s.cfg a s.memMode = true := overrides_eq_true_iff.mpr ⟨hbuilt, h80, hpage⟩
  have hbank (f : ModeFlag) : ramBank f s.cfg a s.memMode = bankOf (s.memMode.getLsbD 3) := if_pos hover
  have ha : a.toNat < 0xC000 := by omega
  exact ⟨exec_busRd_of_ramBank hf ha hmain haux (hbank .readAux),
    exec_busWr_of_ramBank hf ha hmain haux v (hbank .writeAux)⟩

end Sys2Proof.Machine

/-! # PROOFS: the cells behind both ports (20_memory.md R56, R59, 40_segment.md R93 to R100, 41_bus.md R120)

The bounds of SEG_GET and SEG_SET, the new buffer of SEG_ATTACH, and what an access finds after an access. -/

namespace Sys2Proof.Machine

/-! ## The segment port -/

/-- A segment of some length is there. -/
theorem State.exists_segOf_of_lt {s : State} {r : SegRef} {i : Int} (h0 : 0 ≤ i) (h1 : i < s.segLen r) :
    ∃ g, s.segOf r = some g ∧ i < g.len := by
  cases hg : s.segOf r with
  | none =>
    rw [State.segLen_of_none hg] at h1
    omega
  | some g => exact ⟨g, rfl, State.segLen_of_some hg ▸ h1⟩

/-- Settles O26: the bounds check decides between the cell and the record. -/
theorem segGetReadsOrFaults : Obligations.SegGetReadsOrFaults := by
  unfold Obligations.SegGetReadsOrFaults
  exact fun s r i hf hr => ⟨fun g => execSegGet_of_mem hf, execSegGet_of_out hf hr⟩

/-- Settles O27: the bounds check decides between the write of one cell and the record. -/
theorem segSetWritesOrFaults : Obligations.SegSetWritesOrFaults := by
  unfold Obligations.SegSetWritesOrFaults
  refine fun s r i v hf hr => ⟨fun g hg h0 h1 => ?_, execSegSet_of_out hf v hr⟩
  refine ⟨_, execSegSet_of_mem hf v hg h0 h1, rfl, (State.setSeg_fault s r _).trans hf, ?_, fun q hq => ?_⟩
  · rw [State.respond_segOf, State.segOf_setSeg hg]
  · rw [State.respond_segOf, State.segOf_setSeg_ne hq]

/-- Settles O28: the read finds the segment with the byte written, and both bounds checks are the same. -/
theorem segmentRoundTrip : Obligations.SegmentRoundTrip := by
  unfold Obligations.SegmentRoundTrip
  refine fun s r i v hf hr => ⟨fun h0 h1 => ?inside, fun hb => ?outside⟩
  case inside =>
    obtain ⟨g, hg, hlt⟩ := State.exists_segOf_of_lt h0 h1
    have hset : execSegSet r i v s = .next ((s.setSeg r (g.write i.toNat v)).respond .done) :=
      execSegSet_of_mem hf v hg h0 hlt
    have hgt : ((s.setSeg r (g.write i.toNat v)).respond .done).segOf r = some (g.write i.toNat v) := by
      rw [State.respond_segOf, State.segOf_setSeg hg]
    refine ⟨_, _, hset, execSegGet_of_mem ((State.setSeg_fault s r _).trans hf) hgt h0 hlt, ?_⟩
    simp [Segment.read_write]
  case outside =>
    exact ⟨⟨_, execSegGet_of_out hf hr hb, by simp⟩, ⟨_, execSegSet_of_out hf v hr hb, by simp⟩⟩

/-- Settles O30: an absent buffer has length 0, so no address is in bounds and only the empty copy at 0 fits. -/
theorem absentBuffersHaveLengthZero : Obligations.AbsentBuffersHaveLengthZero := by
  unfold Obligations.AbsentBuffersHaveLengthZero
  intro s b d D i v bs hf hD hb
  have hnone : s.segOf (.buf b d) = none := by simp [State.segOf, hD, hb]
  have hlen : s.segLen (.buf b d) = 0 := State.segLen_of_none hnone
  have hr : (SegRef.buf b d).ok s.drives.length = true := driveOk_of_some hD
  have hout : i < 0 ∨ (s.segLen (.buf b d) : Int) ≤ i := by omega
  refine ⟨⟨_, execSegGet_of_out hf hr hout, by simp⟩, ⟨_, execSegSet_of_out hf v hr hout, by simp⟩, ?size, ?copy⟩
  case size => exact (execSegSize_of_ok hf hr).trans (by rw [hlen]; rfl)
  case copy =>
    by_cases hfit : i = 0 ∧ bs = []
    · obtain ⟨rfl, rfl⟩ := hfit
      have hcopy : s.segCopy? (.buf b d) 0 [] = some s := by simp [State.segCopy?, hlen, hnone]
      exact execSegCopy_of_segCopy? hf hr hcopy
    · have hpos : i = 0 → 0 < bs.length := fun hi => List.length_pos_of_ne_nil fun hbs => hfit ⟨hi, hbs⟩
      rw [if_neg hfit]
      exact execSegCopy_of_out hf hr (by omega)

/-- Settles O32: the new buffer is a segment with nothing written, in the place of the old. -/
theorem segAttachCreatesTheBuffer : Obligations.SegAttachCreatesTheBuffer := by
  unfold Obligations.SegAttachCreatesTheBuffer
  intro s b d n D hf hD
  have hnext : exec (.segAttach b d n) s =
      .next ((s.drawn.setDrive d (D.setBuf b (Segment.fresh n s.draws))).respond .done) :=
    (withDrive_of_some hD).trans (running_of_none hf)
  have hseg : ((s.drawn.setDrive d (D.setBuf b (Segment.fresh n s.draws))).respond .done).segOf (.buf b d) =
      some (Segment.fresh n s.draws) := by
    rw [State.respond_segOf, State.segOf, State.drive_setDrive (s := s.drawn) hD]
    exact Drive.buf_setBuf b _ D
  refine ⟨_, hnext, by cases b <;> rfl, fun a ha => ?_, fun a ha => ?_⟩
  · rw [State.peek_of_some hseg, Segment.len_fresh, if_pos ha, Segment.read_fresh]
  · rw [State.peek_of_some hseg, Segment.len_fresh, if_neg (by omega)]

/-! ## A bus access after an access -/

@[simp] theorem Bank.ref_ok (b : Bank) (n : Nat) : b.ref.ok n = true := by cases b <;> rfl

theorem Bank.ref_injective {b c : Bank} (h : b.ref = c.ref) : b = c := by cases b <;> cases c <;> first | rfl | cases h

/-- A RAM read that gives a byte is in bounds. -/
theorem execBusRd_ram_resp {s u : State} {a : Addr} {b : Bank} {i : Nat} {v : Byte}
    (hr : resolveRead s.cfg a s.memMode = .ram b i) (h : execBusRd a s = .next u) (hv : u.resp = some (.byte v)) :
    ∃ g, s.segOf b.ref = some g ∧ i < g.len ∧ v = g.read i := by
  obtain ⟨-, hk⟩ := running_next h
  simp only [hr] at hk
  obtain ⟨g, hg, hi, rfl⟩ | ⟨-, rfl⟩ := busReadCell_next hk
  · simp only [State.respond_resp, Option.some.injEq, Response.byte.injEq] at hv
    exact ⟨g, hg, hi, hv.symm⟩
  · simp at hv

/-- A RAM write without a fault is in bounds and writes its cell. -/
theorem execBusWr_ram_next {s t : State} {a : Addr} {v : Byte} {b : Bank} {i : Nat}
    (hr : resolveWrite s.cfg a s.memMode = .ram b i) (h : execBusWr a v s = .next t) (ht : t.fault = none) :
    ∃ g, s.segOf b.ref = some g ∧ i < g.len ∧ t = (s.setSeg b.ref (g.write i v)).respond .done := by
  obtain ⟨-, hk⟩ := running_next h
  simp only [hr] at hk
  obtain hw | ⟨-, rfl⟩ := busWriteCell_next hk
  · exact hw
  · simp at ht

/-- Settles O21: the write goes to the other bank, so the read finds its segment as it was. -/
theorem differentEnablesHideTheWrite : Obligations.DifferentEnablesHideTheWrite := by
  unfold Obligations.DifferentEnablesHideTheWrite
  intro s t u a v b ha hne hover hread hresp hwrite hfault
  have hno : ¬ overrides s.cfg a s.memMode = true := by simp [hover]
  have hbank (f : ModeFlag) := ramBank_of_not_overrides f hno
  obtain ⟨g, hg, hi, rfl⟩ := execBusRd_ram_resp (resolveRead_of_lt ha) hread hresp
  obtain ⟨g', hg', -, rfl⟩ := execBusWr_ram_next (resolveWrite_of_lt ha) hwrite hfault
  -- the two enables select different banks
  have hother : (ramBank .readAux s.cfg a s.memMode).ref ≠ (ramBank .writeAux s.cfg a s.memMode).ref := fun h => by
    have hsame := Bank.ref_injective h
    rw [hbank, hbank] at hsame
    refine hne ?_
    show flag s.memMode .readAux = flag s.memMode .writeAux
    revert hsame
    cases flag s.memMode .readAux <;> cases flag s.memMode .writeAux <;> decide
  refine ⟨_, execBusRd_of_ram (g := g) hfault (resolveRead_of_lt ha) ?_ hi, rfl⟩
  simpa [State.segOf_setSeg_ne hother] using hg

/-- Running a trap again leaves MemMode and gives the status as before. -/
theorem runTrap_runTrap (k : Trap) (m : Byte) : runTrap k (runTrap k m).2 = runTrap k m := by
  have hset (f : ModeFlag) : setFlag f (setFlag f m) = setFlag f m := by simp [setFlag, BitVec.or_assoc]
  have hunset (f : ModeFlag) : unsetFlag f (unsetFlag f m) = unsetFlag f m := by simp [unsetFlag, BitVec.and_assoc]
  cases k with
  | probe f => rfl
  | set f => simp only [runTrap, hset]
  | unset f => simp only [runTrap, hunset]

/-- Settles O22: the second access resolves as the first did and finds what the first left. -/
theorem busAccessesAreIdempotent : Obligations.BusAccessesAreIdempotent := by
  unfold Obligations.BusAccessesAreIdempotent
  refine fun s t a v ht => ⟨fun h hdraws => ?read, fun h => ?write⟩
  case read =>
    obtain ⟨-, ⟨r, i, g, hg, hi, rfl, ⟨hr, rfl⟩ | ⟨b, hr, rfl⟩⟩ | ⟨_, _, -, rfl, -⟩ | ⟨k, hr, rfl⟩ | ⟨_, rfl⟩⟩ :=
      execBusRd_next h
    · cases hg
      exact execBusRd_of_rom ht hr hi
    · exact execBusRd_of_ram ht hr ((State.respond_segOf s _ _).trans hg) hi
    · simp at ht
    · have htrap := resolveRead_eq_trap_iff.mp hr
      exact (execBusRd_of_trap ht (resolveRead_eq_trap_iff.mpr htrap)).trans (by simp [runTrap_runTrap]; rfl)
    · simp at hdraws
  case write =>
    obtain ⟨hf, ⟨b, i, g, hr, hg, hi, rfl⟩ | ⟨_, _, -, -, rfl⟩ | ⟨k, hr, rfl⟩ | ⟨hr, rfl⟩ | ⟨hr, rfl⟩⟩ := execBusWr_next h
    · have hg' : ((s.setSeg b.ref (g.write i v)).respond .done).segOf b.ref = some (g.write i v) := by
        rw [State.respond_segOf, State.segOf_setSeg hg]
      refine (execBusWr_of_ram v ht (by simpa using hr) hg' hi).trans ?_
      rw [Segment.write_write]
      cases b <;> rfl
    · simp at ht
    · have htrap := resolveWrite_eq_trap_iff.mp hr
      exact (execBusWr_of_trap v ht (resolveWrite_eq_trap_iff.mpr htrap)).trans (by simp [runTrap_runTrap]; rfl)
    · exact (running_of_none ht).trans (by simp only [State.presentExt_cfg, State.presentExt_memMode, hr]; rfl)
    · exact (running_of_none ht).trans (by simp only [State.respond_cfg, State.respond_memMode, hr]; rfl)

/-- Settles O23: each port reads the cell of the segment that the other wrote. -/
theorem portsShareTheCells : Obligations.PortsShareTheCells := by
  unfold Obligations.PortsShareTheCells
  refine fun s t a v b ht => ⟨fun h hr => ?bus, fun h hr => ?segment⟩
  case bus =>
    obtain ⟨-, ⟨hno, -⟩ | ⟨-, ⟨g, hg, -, h1, rfl⟩ | ⟨-, rfl⟩⟩⟩ := execSegSet_next h
    · simp at hno
    · have hi : a.toNat < g.len := by exact_mod_cast h1
      refine ⟨_, execBusRd_of_ram (b := b) ht (by simpa using hr) ?_ (i := a.toNat) (g := g.write a.toNat v) hi, ?_⟩
      · simpa using State.segOf_setSeg hg
      · simp [Segment.read_write]
    · simp at ht
  case segment =>
    obtain ⟨g, hg, hi, rfl⟩ := execBusWr_ram_next hr h ht
    have hg' : ((s.setSeg b.ref (g.write a.toNat v)).respond .done).segOf b.ref = some (g.write a.toNat v) := by
      rw [State.respond_segOf, State.segOf_setSeg hg]
    refine ⟨_, execSegGet_of_mem ht hg' (by omega) (by exact_mod_cast hi), ?_⟩
    simp [Segment.read_write]

end Sys2Proof.Machine

/-! # PROOFS: what decides no outcome (41_bus.md R121, 42_drive.md R139)

A change of the state that the guards, the bus and the answers do not see commutes with the transactions that do not see it
either: the change of the pair (MemPage2, MemHires) under Mem80Store 0, and the erasure of the unread drive fields. -/

namespace Sys2Proof.Machine

/-- The outcome with its next state changed. -/
def outcomeMap (φ : State → State) : Host.Outcome State Fault Refusal → Host.Outcome State Fault Refusal
  | .next t => .next (φ t)
  | .fault r => .fault r
  | .refused r => .refused r

/-- A change of the state that no guard and no answer sees. -/
structure Unseen (φ : State → State) : Prop where
  fault : ∀ s, (φ s).fault = s.fault
  draws : ∀ s, (φ s).draws = s.draws
  respond : ∀ s r, (φ s).respond r = φ (s.respond r)
  presentExt : ∀ s a v, (φ s).presentExt a v = φ (s.presentExt a v)
  drawn : ∀ s, (φ s).drawn = φ s.drawn
  raiseFatal : ∀ s q, (φ s).raiseFatal q = φ (s.raiseFatal q)
  markRefused : ∀ s, (φ s).markRefused = φ s.markRefused

/-- The change sees neither what segment `r` holds nor what is put there. -/
def SparesSegment (φ : State → State) (r : SegRef) : Prop :=
  ∀ s, (φ s).segOf r = s.segOf r ∧ ∀ g, (φ s).setSeg r g = φ (s.setSeg r g)

/-! ## The guards and the accesses to a segment -/

section unseen
variable {φ : State → State} (hφ : Unseen φ) {s : State}
include hφ

theorem running_outcomeMap {k k' : Host.Outcome State Fault Refusal} (hk : k' = outcomeMap φ k) :
    running (φ s) k' = outcomeMap φ (running s k) := by
  cases h : s.fault with
  | none => rw [running_of_none h, running_of_none ((hφ.fault s).trans h), hk]
  | some r => rw [running_of_some h, running_of_some ((hφ.fault s).trans h)]; rfl

theorem refuse_outcomeMap (reason : Refusal) : refuse reason (φ s) = outcomeMap φ (refuse reason s) := by
  cases h : s.fault with
  | none => rw [refuse_of_none h, refuse_of_none ((hφ.fault s).trans h), hφ.markRefused]; rfl
  | some r => rw [refuse_of_some h, refuse_of_some ((hφ.fault s).trans h)]; rfl

theorem nextOrFatal_outcomeMap (q : FaultRecord) {o o' : Option State} (ho : o' = o.map φ) :
    nextOrFatal (φ s) q o' = outcomeMap φ (nextOrFatal s q o) := by
  subst ho
  cases o with
  | none => exact congrArg Host.Outcome.next (hφ.raiseFatal s q)
  | some t => rfl

/-- The answer of a read, on the bus and on the segment port. -/
theorem segGet_outcomeMap {r : SegRef} (hr : SparesSegment φ r) (q : FaultRecord) (i : Int) :
    nextOrFatal (φ s) q (((φ s).segGet? r i).map fun v => (φ s).respond (.byte v)) =
      outcomeMap φ (nextOrFatal s q ((s.segGet? r i).map fun v => s.respond (.byte v))) := by
  refine nextOrFatal_outcomeMap hφ q ?_
  simp only [State.segGet?, (hr s).1, hφ.respond, Option.map_map]
  rfl

/-- The answer of a write, on the bus and on the segment port. -/
theorem segSet_outcomeMap {r : SegRef} (hr : SparesSegment φ r) (q : FaultRecord) (i : Int) (v : Byte) :
    nextOrFatal (φ s) q (((φ s).segSet? r i v).map fun t => t.respond .done) =
      outcomeMap φ (nextOrFatal s q ((s.segSet? r i v).map fun t => t.respond .done)) := by
  refine nextOrFatal_outcomeMap hφ q ?_
  simp only [State.segSet?, (hr s).1, (hr s).2]
  cases s.segOf r with
  | none => rfl
  | some g => by_cases hb : inBounds i g.len = true <;> simp [hb, hφ.respond]

/-! ## The CPU bus -/

/-- A read commutes with the change, where it resolves alike and a trap that it runs commutes too. -/
theorem execBusRd_outcomeMap {a : Addr} (hram : ∀ b : Bank, SparesSegment φ b.ref) (hrom : SparesSegment φ .rom)
    (hres : resolveRead (φ s).cfg a (φ s).memMode = resolveRead s.cfg a s.memMode)
    (htrap : ∀ k, resolveRead s.cfg a s.memMode = .trap k →
      (runTrap k (φ s).memMode).1 = (runTrap k s.memMode).1 ∧
        { φ s with memMode := (runTrap k (φ s).memMode).2 } = φ { s with memMode := (runTrap k s.memMode).2 }) :
    execBusRd a (φ s) = outcomeMap φ (execBusRd a s) := by
  refine running_outcomeMap hφ ?_
  rw [hres]
  cases hr : resolveRead s.cfg a s.memMode with
  | ram b i => exact segGet_outcomeMap hφ (hram b) _ _
  | rom i => exact segGet_outcomeMap hφ hrom _ _
  | trap k =>
    obtain ⟨hstatus, hmode⟩ := htrap k hr
    exact congrArg Host.Outcome.next (by rw [hstatus, hmode, hφ.respond])
  | extIo x | periph x => exact congrArg Host.Outcome.next (by rw [hφ.drawn, hφ.draws, hφ.respond])

/-- A write commutes with the change likewise. -/
theorem execBusWr_outcomeMap {a : Addr} {v : Byte} (hram : ∀ b : Bank, SparesSegment φ b.ref)
    (hres : resolveWrite (φ s).cfg a (φ s).memMode = resolveWrite s.cfg a s.memMode)
    (htrap : ∀ k, resolveWrite s.cfg a s.memMode = .trap k →
      { φ s with memMode := (runTrap k (φ s).memMode).2 } = φ { s with memMode := (runTrap k s.memMode).2 }) :
    execBusWr a v (φ s) = outcomeMap φ (execBusWr a v s) := by
  refine running_outcomeMap hφ ?_
  rw [hres]
  cases hr : resolveWrite s.cfg a s.memMode with
  | ram b i => exact segSet_outcomeMap hφ (hram b) _ _ _
  | trap k => exact congrArg Host.Outcome.next (by rw [htrap k hr, hφ.respond])
  | extIo x => exact congrArg Host.Outcome.next (hφ.presentExt s x v)
  | discard => exact congrArg Host.Outcome.next (hφ.respond s .done)

end unseen

/-! ## The pair (MemPage2, MemHires) under Mem80Store 0 -/

/-- The state with another MemMode. -/
def State.withMode (n : Byte) (s : State) : State := { s with memMode := n }

theorem unseen_withMode (n : Byte) : Unseen (State.withMode n) where
  fault _ := rfl
  draws _ := rfl
  respond _ _ := rfl
  presentExt _ _ _ := rfl
  drawn _ := rfl
  raiseFatal _ _ := rfl
  markRefused _ := rfl

theorem sparesSegment_withMode (n : Byte) (r : SegRef) : SparesSegment (State.withMode n) r := fun s => by
  cases r <;> exact ⟨rfl, fun g => rfl⟩

/-- Settles O20: the two modes resolve alike, and an untrapped access sees nothing else of MemMode. -/
theorem eightyStoreClearHidesThePair : Obligations.EightyStoreClearHidesThePair := by
  unfold Obligations.EightyStoreClearHidesThePair
  intro s t a v n hs hn hpair
  obtain ⟨hread, hwrite⟩ := pageTwoAndHiresAreGated.1 s.cfg a s.memMode n hs hn hpair
  refine ⟨fun hno h => ?read, fun hno h => ?write⟩
  case read =>
    have huntrapped (k : Trap) : resolveRead s.cfg a s.memMode ≠ .trap k := fun hk => by
      obtain ⟨ha, htrap⟩ := resolveRead_eq_trap_iff.mp hk
      rcases hno with hlt | hnone
      · omega
      · simp [htrap] at hnone
    have hmap : execBusRd a (s.withMode n) = outcomeMap (State.withMode n) (execBusRd a s) :=
      execBusRd_outcomeMap (unseen_withMode n) (fun b => sparesSegment_withMode n b.ref) (sparesSegment_withMode n .rom)
        hread.symm fun k hk => absurd hk (huntrapped k)
    exact hmap.trans (congrArg (outcomeMap (State.withMode n)) h)
  case write =>
    have huntrapped (k : Trap) : resolveWrite s.cfg a s.memMode ≠ .trap k := fun hk => by
      obtain ⟨ha, htrap⟩ := resolveWrite_eq_trap_iff.mp hk
      rcases hno with hlt | hnone
      · omega
      · simp [htrap] at hnone
    have hmap : execBusWr a v (s.withMode n) = outcomeMap (State.withMode n) (execBusWr a v s) :=
      execBusWr_outcomeMap (unseen_withMode n) (fun b => sparesSegment_withMode n b.ref) hwrite.symm fun k hk =>
        absurd hk (huntrapped k)
    exact hmap.trans (congrArg (outcomeMap (State.withMode n)) h)

/-! ## The unread drive fields -/

theorem unseen_eraseUnread : Unseen State.eraseUnread where
  fault _ := rfl
  draws _ := rfl
  respond _ _ := rfl
  presentExt _ _ _ := rfl
  drawn _ := rfl
  raiseFatal _ _ := rfl
  markRefused _ := rfl

theorem State.eraseUnread_drive? (s : State) (n : Nat) :
    s.eraseUnread.drives[n]? = (s.drives[n]?).map Drive.eraseUnread := List.getElem?_map

theorem State.eraseUnread_setDrive (s : State) (d : DriveIx) (D : Drive) :
    s.eraseUnread.setDrive d D.eraseUnread = (s.setDrive d D).eraseUnread := by
  simp [State.setDrive, State.eraseUnread, List.map_set]

theorem Drive.eraseUnread_setData (g : Segment) (D : Drive) :
    D.eraseUnread.setBuf .data g = (D.setBuf .data g).eraseUnread := rfl

/-- Data is no unread field. -/
theorem sparesSegment_eraseUnread_data (d : DriveIx) : SparesSegment State.eraseUnread (.buf .data d) := fun s => by
  cases hD : s.drives[d.toNat]? with
  | none =>
    have hD' : s.eraseUnread.drives[d.toNat]? = none := by rw [State.eraseUnread_drive?, hD]; rfl
    refine ⟨by simp [State.segOf, hD, hD'], fun g => ?_⟩
    have hle : s.drives.length ≤ d.toNat := List.getElem?_eq_none_iff.mp hD
    simp [State.setSeg, State.eraseUnread, List.modify_eq_set_getElem?, List.getElem?_eq_none hle]
  | some D =>
    have hD' : s.eraseUnread.drives[d.toNat]? = some D.eraseUnread := by rw [State.eraseUnread_drive?, hD]; rfl
    refine ⟨by simp only [State.segOf, hD, hD', Option.bind_some]; rfl, fun g => ?_⟩
    rw [State.setSeg_buf hD, State.setSeg_buf hD', Drive.eraseUnread_setData, State.eraseUnread_setDrive]

theorem sparesSegment_eraseUnread {r : SegRef} (hr : ∀ d, r ≠ .buf .image d) : SparesSegment State.eraseUnread r := by
  cases r with
  | buf b d =>
    cases b with
    | data => exact sparesSegment_eraseUnread_data d
    | image => exact absurd rfl (hr d)
  | _ => exact fun s => ⟨rfl, fun g => rfl⟩

section outcomes
variable {s : State}

theorem withDrive_eraseUnread {d : DriveIx} {f f' : Drive → Host.Outcome State Fault Refusal}
    (hf : ∀ D : Drive, f' D.eraseUnread = outcomeMap State.eraseUnread (f D)) :
    withDrive d s.eraseUnread f' = outcomeMap State.eraseUnread (withDrive d s f) := by
  simp only [withDrive, State.eraseUnread_drive?]
  cases s.drives[d.toNat]? with
  | none => exact refuse_outcomeMap unseen_eraseUnread _
  | some D => exact running_outcomeMap unseen_eraseUnread (hf D)

theorem withSeg_eraseUnread {r : SegRef} {k k' : Host.Outcome State Fault Refusal}
    (hk : k' = outcomeMap State.eraseUnread k) :
    withSeg r s.eraseUnread k' = outcomeMap State.eraseUnread (withSeg r s k) := by
  cases r with
  | buf b d => exact withDrive_eraseUnread fun _ => hk
  | _ => exact running_outcomeMap unseen_eraseUnread hk

theorem updateDrive_eraseUnread {d : DriveIx} {f : Drive → Drive}
    (hf : ∀ D : Drive, f D.eraseUnread = (f D).eraseUnread) :
    updateDrive d f s.eraseUnread = outcomeMap State.eraseUnread (updateDrive d f s) :=
  withDrive_eraseUnread fun D => by
    rw [hf, State.eraseUnread_setDrive]
    rfl

theorem reportDrive_eraseUnread {d : DriveIx} {f : Drive → Response} (hf : ∀ D : Drive, f D.eraseUnread = f D) :
    reportDrive d f s.eraseUnread = outcomeMap State.eraseUnread (reportDrive d f s) :=
  withDrive_eraseUnread fun D => by
    rw [hf]
    rfl

theorem execSegCopy_eraseUnread {r : SegRef} (hr : SparesSegment State.eraseUnread r) (start : Int) (bs : List Byte) :
    execSegCopy r start bs s.eraseUnread = outcomeMap State.eraseUnread (execSegCopy r start bs s) := by
  have hlen : s.eraseUnread.segLen r = s.segLen r := State.segLen_congr (hr s).1
  have hcopy : s.eraseUnread.segCopy? r start bs = (s.segCopy? r start bs).map State.eraseUnread := by
    simp only [State.segCopy?, hlen, (hr s).1, (hr s).2]
    by_cases hb : start < 0 ∨ start + bs.length > s.segLen r
    · simp only [hb, if_true, Option.map_none]
    · simp only [hb, if_false]
      cases s.segOf r <;> rfl
  refine withSeg_eraseUnread ?_
  rw [hcopy]
  cases s.segCopy? r start bs <;> rfl

theorem execSegSize_eraseUnread {r : SegRef} (hr : SparesSegment State.eraseUnread r) :
    execSegSize r s.eraseUnread = outcomeMap State.eraseUnread (execSegSize r s) :=
  withSeg_eraseUnread (by rw [State.segLen_congr (hr s).1]; rfl)

theorem execSegAttach_data_eraseUnread (d : DriveIx) (n : Nat) :
    execSegAttach .data d n s.eraseUnread = outcomeMap State.eraseUnread (execSegAttach .data d n s) :=
  withDrive_eraseUnread fun D => by
    rw [Drive.eraseUnread_setData, unseen_eraseUnread.drawn, unseen_eraseUnread.draws, State.eraseUnread_setDrive]
    rfl

theorem execReset_eraseUnread : execReset s.eraseUnread = outcomeMap State.eraseUnread (execReset s) := by
  refine running_outcomeMap unseen_eraseUnread ?_
  have hcreate : s.eraseUnread.create = s.create.eraseUnread := by
    simp [State.create, State.eraseUnread, Drive.eraseUnread, Drive.initial]
  rw [hcreate]
  rfl

end outcomes

theorem Drive.eraseUnread_shift (off : Int) (D : Drive) : D.eraseUnread.shift off = (D.shift off).eraseUnread := by
  cases h : D.locked with
  | true => rw [Drive.shift_of_locked off h, Drive.shift_of_locked off (D := D.eraseUnread) h]
  | false => rw [Drive.shift_of_unlocked off h, Drive.shift_of_unlocked off (D := D.eraseUnread) h]; rfl

theorem Drive.eraseUnread_stepPhase (a : Addr) (D : Drive) :
    D.eraseUnread.stepPhase a = (D.stepPhase a).eraseUnread := by
  cases h : phaseDecode a with
  | none => rw [Drive.stepPhase_of_none h, Drive.stepPhase_of_none h]
  | some p => rw [Drive.stepPhase_of_some h, Drive.stepPhase_of_some h]; rfl

/-- The transactions left out are those that report or set an unread field, or name an Image. -/
theorem exec_eraseUnread {i : Instr} (hi : touchesUnread i = false) (s : State) :
    exec i s.eraseUnread = outcomeMap State.eraseUnread (exec i s) := by
  have hφ := unseen_eraseUnread
  have hram (b : Bank) : SparesSegment State.eraseUnread b.ref :=
    sparesSegment_eraseUnread (by cases b <;> exact fun _ h => by cases h)
  cases i with
  | drvGetFlags _ | drvSetFlags _ _ | drvGetImagetype _ | drvSetImagetype _ _ => cases hi
  | busRd a => exact execBusRd_outcomeMap hφ hram (sparesSegment_eraseUnread (by simp)) rfl fun k _ => ⟨rfl, rfl⟩
  | busWr a v => exact execBusWr_outcomeMap hφ hram rfl fun k _ => rfl
  | mmGet => exact running_outcomeMap hφ rfl
  | segGet r k =>
    have hr : SparesSegment State.eraseUnread r := sparesSegment_eraseUnread fun d hr => by subst hr; cases hi
    exact withSeg_eraseUnread (segGet_outcomeMap hφ hr _ _)
  | segSet r k v =>
    have hr : SparesSegment State.eraseUnread r := sparesSegment_eraseUnread fun d hr => by subst hr; cases hi
    exact withSeg_eraseUnread (segSet_outcomeMap hφ hr _ _ _)
  | segCopy r start bs =>
    exact execSegCopy_eraseUnread (sparesSegment_eraseUnread fun d hr => by subst hr; cases hi) start bs
  | segSize r => exact execSegSize_eraseUnread (sparesSegment_eraseUnread fun d hr => by subst hr; cases hi)
  | segAttach b d n =>
    cases b with
    | data => exact execSegAttach_data_eraseUnread d n
    | image => cases hi
  | drvStepPhase d a => exact updateDrive_eraseUnread (Drive.eraseUnread_stepPhase a)
  | drvShift d off => exact updateDrive_eraseUnread (Drive.eraseUnread_shift off)
  | drvStep d off => exact updateDrive_eraseUnread fun _ => rfl
  | drvPosition d | drvGetHead d => exact reportDrive_eraseUnread fun _ => rfl
  | reset => exact execReset_eraseUnread

/-- Settles O45: the erasure commutes with every transaction that does not name what it erases. -/
theorem unreadDriveFieldsDecideNothing : Obligations.UnreadDriveFieldsDecideNothing := by
  unfold Obligations.UnreadDriveFieldsDecideNothing
  intro i s t hi h
  rw [exec_eraseUnread hi, h]
  rfl

end Sys2Proof.Machine

/-! # PROOFS: the drives and RESET (42_drive.md, 30_encoding.md R86, R88, 70_reset_and_hazards.md R165, R174)

The seek by phases, the read at the head's position, the reports and settings, and the values at reset. -/

namespace Sys2Proof.Machine

/-! ## Seeking by phases -/

/-- Settles O36: the table's entries for the phases 0 to 4, one by one. -/
theorem phaseTableValues : Obligations.PhaseTableValues := by
  unfold Obligations.PhaseTableValues
  have entries : ∀ p < 5, ∀ q < 5, 1 ≤ q →
      phaseStep (p : Nat) (q : Nat) =
        if p = 0 then 0 else if q = p % 4 + 1 then 1 else if p = q % 4 + 1 then -1 else 0 := by
    decide
  exact fun p q hp h1 h4 => entries p (by omega) q (by omega) h1

/-- From a phase to the next one in ascending order the table moves the head one half-track inwards. -/
theorem phaseStep_ascending {p : Nat} (h1 : 1 ≤ p) (h4 : p ≤ 4) : phaseStep p (p % 4 + 1 : Nat) = 1 := by
  rw [phaseTableValues p (p % 4 + 1) h4 (by omega) (by omega), if_neg (by omega), if_pos rfl]

theorem phaseDecode_phaseAddr {p : Nat} (h1 : 1 ≤ p) (h4 : p ≤ 4) : phaseDecode (phaseAddr p) = some (p : Int) := by
  refine phaseDecode_of_phase h1 h4 ?_
  rw [phaseAddr, BitVec.toNat_ofNat]
  omega

/-- The drive after `k` activations in ascending order after phase `p` (42_drive.md R129). -/
def Drive.seek (k p : Nat) (D : Drive) : Drive :=
  { D with
    phase := ((p - 1 + k) % 4 + 1 : Nat)
    trackPos := min 70 (D.trackPos + k)
    sectorPos := if k = 0 then D.sectorPos else 0 }

theorem Drive.seek_zero {D : Drive} {p : Nat} (h1 : 1 ≤ p) (h4 : p ≤ 4) (hp : D.phase = p) (h70 : D.trackPos ≤ 70) :
    D.seek 0 p = D := by
  have hphase : ((p - 1 + 0) % 4 + 1 : Nat) = p := by omega
  have htrack : min 70 (D.trackPos + (0 : Nat)) = D.trackPos := by omega
  rw [Drive.seek, hphase, htrack, ← hp, if_pos rfl]

/-- One activation in ascending order. -/
theorem Drive.stepPhase_ascending {D : Drive} {p : Nat} (h1 : 1 ≤ p) (h4 : p ≤ 4) (hp : D.phase = p)
    (h0 : 0 ≤ D.trackPos) : D.stepPhase (phaseAddr (p % 4 + 1)) = D.seek 1 p := by
  have hphase : (p - 1 + 1) % 4 + 1 = p % 4 + 1 := by omega
  have htrack : max 0 (min 70 (D.trackPos + 1)) = min 70 (D.trackPos + (1 : Nat)) := by omega
  rw [Drive.stepPhase_of_some (phaseDecode_phaseAddr (by omega) (by omega)), hp, phaseStep_ascending h1 h4, Drive.step_eq,
    Drive.seek, hphase, htrack]
  rfl

theorem Drive.seek_seek (k : Nat) {p : Nat} (h1 : 1 ≤ p) (D : Drive) :
    (D.seek 1 p).seek k (p % 4 + 1) = D.seek (k + 1) p := by
  have hphase : ((p % 4 + 1 - 1 + k) % 4 + 1 : Nat) = (p - 1 + (k + 1)) % 4 + 1 := by omega
  have htrack : min 70 (min 70 (D.trackPos + (1 : Nat)) + (k : Int)) = min 70 (D.trackPos + (k + 1 : Nat)) := by
    push_cast
    omega
  simp only [Drive.seek, hphase, htrack]
  simp

/-- The activations in ascending order seek, by induction on their number. -/
theorem execAll_ascendingPhases (k : Nat) {p : Nat} {s : State} {d : DriveIx} {D : Drive} (hf : s.fault = none)
    (hD : s.drives[d.toNat]? = some D) (h1 : 1 ≤ p) (h4 : p ≤ 4) (hp : D.phase = p) (h0 : 0 ≤ D.trackPos)
    (h70 : D.trackPos ≤ 70) :
    ∃ t, execAll (ascendingPhases d k p) s = .next t ∧ t.drives[d.toNat]? = some (D.seek k p) := by
  induction k generalizing p s D with
  | zero => exact ⟨s, rfl, by rw [Drive.seek_zero h1 h4 hp h70, hD]⟩
  | succ k ih =>
    have hnext : exec (.drvStepPhase d (phaseAddr (p % 4 + 1))) s =
        .next ((s.setDrive d (D.seek 1 p)).respond .done) := by
      rw [← Drive.stepPhase_ascending h1 h4 hp h0]
      exact updateDrive_of_some hf hD
    have hphase : (D.seek 1 p).phase = (p % 4 + 1 : Nat) := by
      simp only [Drive.seek]
      omega
    have htrack : 0 ≤ (D.seek 1 p).trackPos ∧ (D.seek 1 p).trackPos ≤ 70 := by
      simp only [Drive.seek]
      omega
    obtain ⟨t, hall, ht⟩ := ih (p := p % 4 + 1) (s := (s.setDrive d (D.seek 1 p)).respond .done) hf
      (State.drive_setDrive hD (D.seek 1 p)) (by omega) (by omega) hphase htrack.1 htrack.2
    refine ⟨t, ?_, Drive.seek_seek k h1 D ▸ ht⟩
    simp only [ascendingPhases, execAll, hnext]
    exact hall

/-- Settles O38: the activations leave the drive sought. -/
theorem ascendingPhasesSeek : Obligations.AscendingPhasesSeek := by
  unfold Obligations.AscendingPhasesSeek
  intro k p s d D hf hD h1 h4 hp h0 h70
  obtain ⟨t, hall, ht⟩ := execAll_ascendingPhases k hf hD h1 h4 hp h0 h70
  exact ⟨t, _, hall, ht, rfl, rfl, fun hk => if_neg hk.ne'⟩

/-! ## Reports -/

/-- Settles O39: the report is the position with the length of a track written out. -/
theorem drvPositionIsTheLinearOffset : Obligations.DrvPositionIsTheLinearOffset := by
  unfold Obligations.DrvPositionIsTheLinearOffset
  intro s d D hf hD
  have hpos : D.position = if D.data = none then 0 else D.trackPos.tdiv 2 * 6704 + D.sectorPos := by
    unfold Drive.position
    cases D.data <;> simp [Geometry.physTrackLen]
  rw [← hpos]
  exact reportDrive_of_some hf hD

theorem Drive.position_of_data {D : Drive} {g : Segment} (hg : D.data = some g) :
    D.position = D.trackPos.tdiv 2 * 6704 + D.sectorPos := by
  simp [Drive.position, hg, Geometry.physTrackLen]

/-- Settles O40: the position is within a full-size Data as long as its track is one of the 35. -/
theorem readingAtThePosition : Obligations.ReadingAtThePosition := by
  unfold Obligations.ReadingAtThePosition
  intro s t d D g n hD hg hlen h0 h70 hs0 hs h hn
  have hf : s.fault = none := exec_next_fault h
  cases (reportDrive_of_some hf hD).symm.trans h
  have hpos : n = D.trackPos / 2 * 6704 + D.sectorPos := by
    rw [← Int.tdiv_eq_ediv_of_nonneg h0, ← Drive.position_of_data hg]
    simpa using hn.symm
  have hseg : (s.respond (.int D.position)).segOf (.buf .data d) = some g := by
    simp [State.segOf, hD, Drive.buf, hg]
  refine ⟨fun h69 => ?inside, fun hend => ?outside, fun k hk htrack => ?pair⟩
  case inside => exact ⟨_, execSegGet_of_mem hf hseg (by omega) (by omega), hf, rfl⟩
  case outside =>
    refine ⟨_, execSegGet_of_out hf (segRef_ok_of_segOf hseg) (.inr ?_), by simp⟩
    rw [State.segLen_of_some hseg]
    omega
  case pair =>
    have hdiv : D.trackPos / 2 = k := by omega
    rw [hpos, hdiv]

/-- The flag byte holds each flag in its bit, and nothing in bits 7 .. 4 (30_encoding.md R83). -/
theorem flagBits (o m w l : Bool) :
    let v := bitAt o 0 ||| bitAt m 1 ||| bitAt w 2 ||| bitAt l 3
    v.getLsbD 0 = o ∧ v.getLsbD 1 = m ∧ v.getLsbD 2 = w ∧ v.getLsbD 3 = l ∧ v.toNat < 16 := by
  revert o m w l
  decide

theorem HeadMode.isWrite_eq (m : HeadMode) : m.isWrite = decide (m = .write) := by cases m <;> rfl

/-- Settles O41: each report is the answer of its drive's fields. -/
theorem driveReports : Obligations.DriveReports := by
  unfold Obligations.DriveReports
  refine fun s d D hf hD => ⟨reportDrive_of_some hf hD, ⟨D.flagByte, reportDrive_of_some hf hD, ?flags⟩, ?imageType⟩
  case flags =>
    rw [← HeadMode.isWrite_eq]
    exact flagBits D.online D.mode.isWrite D.writeProtect D.locked
  case imageType =>
    refine (reportDrive_of_some hf hD).trans ?_
    cases hy : D.imageType <;> simp only [imageTypeByte] <;> rfl

/-- The flag byte after a flag write is the low nibble of the byte written (42_drive.md R132, R133). -/
theorem Drive.flagByte_setFlagByte (v : Byte) (D : Drive) : (D.setFlagByte v).flagByte = v &&& 0x0F := by
  have hmode : (if v.getLsbD 1 then HeadMode.write else HeadMode.read).isWrite = v.getLsbD 1 := by
    cases v.getLsbD 1 <;> rfl
  have hbyte : (D.setFlagByte v).flagByte =
      bitAt (v.getLsbD 0) 0 ||| bitAt (v.getLsbD 1) 1 ||| bitAt (v.getLsbD 2) 2 ||| bitAt (v.getLsbD 3) 3 := by
    simp only [Drive.flagByte, Drive.setFlagByte, hmode]
  obtain ⟨h0, h1, h2, h3, hlt⟩ := flagBits (v.getLsbD 0) (v.getLsbD 1) (v.getLsbD 2) (v.getLsbD 3)
  rw [← hbyte] at h0 h1 h2 h3 hlt
  refine BitVec.eq_of_getLsbD_eq fun k hk => ?_
  by_cases h4 : k < 4
  · have hmask : (v &&& 0x0F).getLsbD k = v.getLsbD k := by
      rw [BitVec.getLsbD_and]
      interval_cases k <;> simp
    rw [hmask]
    interval_cases k <;> assumption
  · have hhigh : ∀ x : Byte, x.toNat < 16 → x.getLsbD k = false := fun x hx =>
      Nat.testBit_lt_two_pow (hx.trans_le (Nat.pow_le_pow_right (by decide : 0 < 2) (by omega : 4 ≤ k)))
    rw [hhigh _ hlt, hhigh _ (Nat.lt_of_le_of_lt Nat.and_le_right (by decide))]

/-- Settles O42: each setting is the update of its drive, and the flags read back are the low nibble. -/
theorem driveSettings : Obligations.DriveSettings := by
  unfold Obligations.DriveSettings
  intro s d v y D hf hD
  have hset : exec (.drvSetFlags d v) s = .next ((s.setDrive d (D.setFlagByte v)).respond .done) :=
    updateDrive_of_some hf hD
  have hget : exec (.drvGetFlags d) ((s.setDrive d (D.setFlagByte v)).respond .done) =
      .next (((s.setDrive d (D.setFlagByte v)).respond .done).respond (.byte (D.setFlagByte v).flagByte)) :=
    reportDrive_of_some hf (State.drive_setDrive hD _)
  refine ⟨⟨_, _, hset, rfl, hget, ?_⟩, updateDrive_of_some hf hD⟩
  rw [State.respond_resp, Drive.flagByte_setFlagByte]

/-! ## RESET and the configuration after it -/

/-- Settles O46: RESET is creation. -/
theorem resetCreatesTheMachine : Obligations.ResetCreatesTheMachine := by
  unfold Obligations.ResetCreatesTheMachine
  exact fun s hf => running_of_none hf

theorem peek_of_segOf_fresh {s : State} {r : SegRef} {n k : Nat} (h : s.segOf r = some (Segment.fresh n k)) {a : Nat}
    (ha : a < n) : s.peek r a = some (Config.unspec k a) := by
  rw [State.peek_of_some h, Segment.len_fresh, if_pos ha, Segment.read_fresh]

/-- Settles O47: the state after RESET, field by field; its segments are fresh. -/
theorem resetStateValues : Obligations.ResetStateValues := by
  unfold Obligations.ResetStateValues
  refine ⟨rfl, rfl, rfl, rfl, rfl, rfl, fun D hD => ?drives, fun a => peek_of_segOf_fresh rfl,
    fun a => peek_of_segOf_fresh rfl, fun a => peek_of_segOf_fresh rfl, rfl, rfl, rfl, rfl, rfl, rfl⟩
  case drives =>
    rw [List.eq_of_mem_replicate hD]
    exact ⟨rfl, rfl, rfl, rfl, rfl, rfl, rfl, rfl, rfl, rfl⟩

/-- An address that no row names has no entry (30_encoding.md R84). -/
theorem switchEntry_eq_none {table : List SwitchRow} {a : Addr} (h : a ∉ table.map SwitchRow.addr) :
    switchEntry table a = none := by
  refine List.find?_eq_none.mpr fun r hr => ?_
  rw [beq_iff_eq]
  exact fun hra => h (hra ▸ List.mem_map_of_mem hr)

/-- Settles O25: the 21 rows are read off, and an address beside them has no entry. -/
theorem defaultTableTraps : Obligations.DefaultTableTraps := by
  unfold Obligations.DefaultTableTraps
  refine ⟨by decide, fun a ha => ?_⟩
  have hnone : switchEntry State.reset.cfg.switchTable a = none := switchEntry_eq_none ha
  exact ⟨by rw [readTrap, hnone]; rfl, by rw [writeTrap, hnone]; rfl⟩

end Sys2Proof.Machine
